-- ==== Sys2Proof/Word.lean ====
section
/-! DEFINITION. The bit-vector types of the block (spec 00_scope.md R7, R8; 30_encoding.md R80).
Bit 0 is the least significant bit of every word; every value is unsigned (R8). -/

namespace Sys2Proof

/-- A bus byte and an element of a byte buffer, `BYTE_W` = 8 (R7). -/
abbrev Byte := BitVec 8

/-- A slave address, `ADDR_W` = 7 (R7). -/
abbrev SlaveAddr := BitVec 7

/-- A byte count and the loop index, `CNT_W` = 8 (R7, R24, R25). -/
abbrev Count := BitVec 8

/-- The opcode field of a command word, and the latch `op` (R24, R82). -/
abbrev Opcode := BitVec 4

/-- Format C, the host command word, `CMD_W` = 32 (R7, R81). -/
abbrev CmdWord := BitVec 32

/-- Format P, the primitive request word `prim_op, prim_ack, prim_wdata` (R84). -/
abbrev PrimWord := BitVec 11

end Sys2Proof
end

