-- ==== Sys2Proof/Config.lean ====
section
/-! DEFINITION. What a build fixes (R7) and the values the spec leaves free.

`Params` is plain data, held in State, because HOST_PRIMITIVES and STOP_THEN_START_OK are arguments of
the model (R7) and every statement is to hold for each value of them (log 3). The constants below have
no body: nothing can be proved of their values. -/

namespace Sys2Proof

/-- The two build-time parameters a rule depends on (R7). They never change at run time (R96). -/
structure Params where
  /-- `HOST_PRIMITIVES`: the command port accepts the four primitives (R7, R121). -/
  hostPrimitives : Bool
  /-- `STOP_THEN_START_OK`: the peripheral drives a START correctly although the STOP before it is still
  being driven (R7, R236). -/
  stopThenStartOk : Bool
  deriving DecidableEq, Repr

/-- The six flags of the peripheral's control register `REG_CTRL` (R35). -/
inductive CtrlFlag where
  /-- `F_START`: request to drive a START condition. -/
  | fStart
  /-- `F_STOP`: request to drive a STOP condition. -/
  | fStop
  /-- `F_ACK`: whether the master acknowledges the next received byte. -/
  | fAck
  /-- `F_GO`: the trigger. -/
  | fGo
  /-- `F_DONE`: the completion flag. -/
  | fDone
  /-- `F_EN`: the peripheral is enabled. -/
  | fEn
  deriving DecidableEq, Repr

/-- The registers of the peripheral (R36). -/
inductive PeriphReg where
  /-- `REG_CTRL`, the control register that holds the six flags. -/
  | ctrl
  /-- `REG_STATUS`, the result-status register, never read by the block. -/
  | status
  /-- `REG_DATA`, the data register. -/
  | data
  /-- `REG_RATE`, the rate divisor. -/
  | rate
  /-- `PRESCALE`, the clock-prescale configuration, here a register of its own (log 35). -/
  | prescale
  deriving DecidableEq, Repr

/-- `PRESCALE_CFG`, the clock-prescale configuration that `INIT` sets (R7, R201). OPEN in the spec (U19), so
it has no value here (log 10). -/
opaque Config.prescaleCfg : Nat

/-- `RATE_DIV`, the rate divisor that `INIT` sets (R7, R201). OPEN in the spec (U19), so it has no value here
(log 10). -/
opaque Config.rateDiv : Nat

/-- `FLAG_POS`, the bit position of a flag in `REG_CTRL` (R7, U20). No rule depends on it, so nothing reads it
(log 11). -/
opaque Config.flagPos : CtrlFlag → Nat

/-- `REG_ADDR`, the address of a register of the peripheral (R7, U20). No rule depends on it, so nothing reads
it (log 11). -/
opaque Config.regAddr : PeriphReg → Nat

/-- Free byte number `draw`, place `place`: a byte the spec gives no value (log 7, log 9). -/
opaque Config.freeByte : (draw place : Nat) → Byte

/-- Free bit number `draw`, place `place` (log 9). -/
opaque Config.freeBit : (draw place : Nat) → Bool

/-- Free number `draw`, place `place` (log 9). -/
opaque Config.freeNat : (draw place : Nat) → Nat

end Sys2Proof
end

