-- ==== Sys2Proof/Syntax.lean ====
section
/-! DEFINITION. The instruction set: one constructor for each row of opcode_table.json (R2, R83, R84).
Eight rows are host commands of format C, four are primitive requests of format P. -/

namespace Sys2Proof

/-- The AckDecision (R10, R87): one bit, 1 is ACK ("more bytes expected"), 0 is NACK ("last byte of a read
phase"). -/
inductive Ack where
  /-- 0, the last byte of a read phase. -/
  | nack
  /-- 1, more bytes expected. -/
  | ack
  deriving DecidableEq, Repr

/-- The direction of an address byte (R86, R141). -/
inductive Dir where
  /-- `WRITE` = 0. -/
  | write
  /-- `READ` = 1. -/
  | read
  deriving DecidableEq, Repr

/-- The instructions of the block. -/
inductive Instr where
  /-- `INIT` (R200). -/
  | init
  /-- `WRITE_BURST` with the slave address and the transmit length `n` (R162). -/
  | writeBurst (a : SlaveAddr) (n : Count)
  /-- `READ_BURST` with the slave address and the receive count (R163). -/
  | readBurst (a : SlaveAddr) (c : Count)
  /-- `WRITE_THEN_READ` with the slave address, the transmit length `m` and the receive count (R164). -/
  | writeThenRead (a : SlaveAddr) (m : Count) (r : Count)
  /-- `START`, the host form of Start (R112, R121). -/
  | start
  /-- `STOP`, the host form of Stop (R113, R121). -/
  | stop
  /-- `WRITE_BYTE` with its data byte, the host form of WriteByte (R114, R121). -/
  | writeByte (d : Byte)
  /-- `READ_BYTE` with its AckDecision, the host form of ReadByte (R115, R121). -/
  | readByte (k : Ack)
  /-- `PRIM_START`, the request of a START or repeated START (R112, R123). -/
  | primStart
  /-- `PRIM_STOP`, the request of a STOP (R113). -/
  | primStop
  /-- `PRIM_WRITE` with the byte to transmit (R114). -/
  | primWrite (d : Byte)
  /-- `PRIM_READ` with the AckDecision for the byte to receive (R115). -/
  | primRead (k : Ack)
  deriving DecidableEq, Repr

/-- The pseudo-command `PROBE_W(a)` (R93). -/
abbrev Instr.probeW (a : SlaveAddr) : Instr := .writeBurst a 0

/-- The pseudo-command `PROBE_R(a)` (R93). -/
abbrev Instr.probeR (a : SlaveAddr) : Instr := .readBurst a 0

/-- The pseudo-command `READ_REG(a, reg, n)` (R93): the register number `reg` is byte 0 of the transmit view,
which the command word does not hold. -/
abbrev Instr.readReg (a : SlaveAddr) (n : Count) : Instr := .writeThenRead a 1 n

end Sys2Proof
end

