-- ==== Sys2Proof/WellFormed.lean ====
section
/-! DEFINITION. Which instructions a build admits (R82, R89). Field widths are in the types of Instr, so the one
check left is the build parameter HOST_PRIMITIVES. -/

namespace Sys2Proof

/-- A host form of a bus primitive, of which R82 says `HOST_PRIMITIVES` true. -/
def Instr.isHostPrimitive : Instr → Bool
  | .start => true
  | .stop => true
  | .writeByte _ => true
  | .readByte _ => true
  | .init => false
  | .writeBurst _ _ => false
  | .readBurst _ _ => false
  | .writeThenRead _ _ _ => false
  | .primStart => false
  | .primStop => false
  | .primWrite _ => false
  | .primRead _ => false

/-- A command the host presents on the command port (format C), as against a request of the sequencer
(format P) (R80). -/
def Instr.isCommand : Instr → Bool
  | .init => true
  | .writeBurst _ _ => true
  | .readBurst _ _ => true
  | .writeThenRead _ _ _ => true
  | .start => true
  | .stop => true
  | .writeByte _ => true
  | .readByte _ => true
  | .primStart => false
  | .primStop => false
  | .primWrite _ => false
  | .primRead _ => false

/-- The instruction is admitted by a build with this value of `HOST_PRIMITIVES` (R82, R89). -/
def Instr.wellFormed (hostPrimitives : Bool) (i : Instr) : Bool :=
  !i.isHostPrimitive || hostPrimitives

end Sys2Proof
end

