-- ==== Sys2Proof/Decode.lean ====
section
/-! DEFINITION. Decoding and encoding of the three formats (30_encoding.md): format C (R81, R83, R94), format P
(R84), and the one-bit values (R86, R87). A word is taken whole from its port, so no byte order enters (R64). -/

namespace Sys2Proof

/-- The direction bit (R86). -/
def Dir.toBit : Dir → BitVec 1
  | .write => 0
  | .read => 1

/-- The AckDecision bit (R87). -/
def Ack.toBit : Ack → BitVec 1
  | .nack => 0
  | .ack => 1

/-- The AckDecision a bit stands for (R87). -/
def Ack.ofBit (b : Bool) : Ack := if b then .ack else .nack

/-- The rows of R83, in the order of R94. -/
inductive CmdRow where
  | init
  | writeBurst
  | readBurst
  | writeThenRead
  | start
  | stop
  | writeByte
  | readByte
  deriving DecidableEq, Repr

/-- The rows in the order in which R94 tries them. -/
def CmdRow.all : List CmdRow :=
  [.init, .writeBurst, .readBurst, .writeThenRead, .start, .stop, .writeByte, .readByte]

/-- The opcode of a row (R82). -/
def CmdRow.opcode : CmdRow → Opcode
  | .init => 0x1
  | .writeBurst => 0x2
  | .readBurst => 0x3
  | .writeThenRead => 0x4
  | .start => 0x8
  | .stop => 0x9
  | .writeByte => 0xA
  | .readByte => 0xB

/-- The `match` column of R83. -/
def CmdRow.pattern : CmdRow → CmdWord
  | .init => 0x10000000
  | .writeBurst => 0x20000000
  | .readBurst => 0x30000000
  | .writeThenRead => 0x40000000
  | .start => 0x80000000
  | .stop => 0x90000000
  | .writeByte => 0xA0000000
  | .readByte => 0xB0000000

/-- The `mask` column of R83. -/
def CmdRow.mask : CmdRow → CmdWord
  | .init => 0xFFFFFFFF
  | .writeBurst => 0xF80F00FF
  | .readBurst => 0xF80FFF00
  | .writeThenRead => 0xF80F0000
  | .start => 0xFFFFFFFF
  | .stop => 0xFFFFFFFF
  | .writeByte => 0xFFFFFF00
  | .readByte => 0xFFFFFFFE

/-- The rows that only a build with `HOST_PRIMITIVES` admits (R82). -/
def CmdRow.isHostPrimitive : CmdRow → Bool
  | .init => false
  | .writeBurst => false
  | .readBurst => false
  | .writeThenRead => false
  | .start => true
  | .stop => true
  | .writeByte => true
  | .readByte => true

/-- The word `w` selects the row (R83). -/
def CmdRow.selects (r : CmdRow) (w : CmdWord) : Bool := w &&& r.mask == r.pattern

/-- The field `opc`, bits 31:28 (R81). -/
def fieldOpc (w : CmdWord) : Opcode := w.extractLsb' 28 4

/-- The field `a7`, bits 26:20 (R81, R91). -/
def fieldA7 (w : CmdWord) : SlaveAddr := w.extractLsb' 20 7

/-- The field `txl`, bits 15:8 (R81, R91). -/
def fieldTxl (w : CmdWord) : Count := w.extractLsb' 8 8

/-- The field `rxc`, bits 7:0, which also carries `d8` and `k` (R81, R91). -/
def fieldRxc (w : CmdWord) : Byte := w.extractLsb' 0 8

/-- The instruction of a row with the fields of the word (R91). -/
def CmdRow.instr (r : CmdRow) (w : CmdWord) : Instr :=
  match r with
  | .init => .init
  | .writeBurst => .writeBurst (fieldA7 w) (fieldTxl w)
  | .readBurst => .readBurst (fieldA7 w) (fieldRxc w)
  | .writeThenRead => .writeThenRead (fieldA7 w) (fieldTxl w) (fieldRxc w)
  | .start => .start
  | .stop => .stop
  | .writeByte => .writeByte (fieldRxc w)
  | .readByte => .readByte (Ack.ofBit (w.getLsbD 0))

/-- Why a command word is illegal (R89). The three names are the model's, the three cases are R89's. -/
inductive IllegalWord where
  /-- No row has the word's opcode: 0x0, 0x5 to 0x7, 0xC to 0xF. -/
  | reservedOpcode (opc : Opcode)
  /-- A row has the opcode and a must-be-zero bit is 1. -/
  | mustBeZeroBitSet (row : CmdRow)
  /-- A host primitive in a build with `HOST_PRIMITIVES` false. -/
  | hostPrimitivesOff (row : CmdRow)
  deriving DecidableEq, Repr

/-- What decoding a command word answers (R94). -/
inductive Decoded where
  /-- The word is legal and stands for this instruction. -/
  | legal (i : Instr)
  /-- The word is illegal. -/
  | illegal (why : IllegalWord)
  deriving DecidableEq, Repr

/-- Decode of a command word, total on all 32-bit values (R94). -/
def decodeCmd (hostPrimitives : Bool) (w : CmdWord) : Decoded :=
  match CmdRow.all.find? (fun r => r.selects w) with
  | some r =>
    if r.isHostPrimitive && !hostPrimitives then .illegal (.hostPrimitivesOff r)
    else .legal (r.instr w)
  | none =>
    match CmdRow.all.find? (fun r => r.opcode == fieldOpc w) with
    | some r => .illegal (.mustBeZeroBitSet r)
    | none => .illegal (.reservedOpcode (fieldOpc w))

/-- The field `prim_op`, bits 10:9 (R84). -/
def fieldPrimOp (w : PrimWord) : BitVec 2 := w.extractLsb' 9 2

/-- Decode of a primitive request word (R84). All four values of `prim_op` are used, and the fields a row does
not use are ignored (log 19), so every word stands for an instruction. -/
def decodePrim (w : PrimWord) : Instr :=
  if fieldPrimOp w = 0 then .primStart
  else if fieldPrimOp w = 1 then .primStop
  else if fieldPrimOp w = 2 then .primWrite (w.extractLsb' 0 8)
  else .primRead (Ack.ofBit (w.getLsbD 8))

/-- A command word from its fields: `opc`, 0, `a7`, 0000, `txl`, `rxc` (R81). -/
def cmdWord (opc : Opcode) (a : SlaveAddr) (txl rxc : Byte) : CmdWord :=
  opc ++ (0 : BitVec 1) ++ a ++ (0 : BitVec 4) ++ txl ++ rxc

/-- A primitive request word from its fields (R84). -/
def primWord (op : BitVec 2) (k : Ack) (d : Byte) : PrimWord := op ++ k.toBit ++ d

/-- An encoded instruction: a word of the command port or of the primitive request port (R80). -/
inductive Encoded where
  /-- Format C, 32 bits. -/
  | cmd (w : CmdWord)
  /-- Format P, 11 bits. -/
  | prim (w : PrimWord)
  deriving DecidableEq, Repr

/-- The byte that carries the AckDecision of `READ_BYTE`: bits 7:1 are 0 (R81). -/
def ackByte (k : Ack) : Byte := (0 : BitVec 7) ++ k.toBit

/-- The word of an instruction, from the patterns of R83 and R84. -/
def encode : Instr → Encoded
  | .init => .cmd (cmdWord 0x1 0 0 0)
  | .writeBurst a n => .cmd (cmdWord 0x2 a n 0)
  | .readBurst a c => .cmd (cmdWord 0x3 a 0 c)
  | .writeThenRead a m r => .cmd (cmdWord 0x4 a m r)
  | .start => .cmd (cmdWord 0x8 0 0 0)
  | .stop => .cmd (cmdWord 0x9 0 0 0)
  | .writeByte d => .cmd (cmdWord 0xA 0 0 d)
  | .readByte k => .cmd (cmdWord 0xB 0 0 (ackByte k))
  | .primStart => .prim (primWord 0 .nack 0)
  | .primStop => .prim (primWord 1 .nack 0)
  | .primWrite d => .prim (primWord 2 .nack d)
  | .primRead k => .prim (primWord 3 k 0)

/-- Decode of a word of either port. -/
def decode (hostPrimitives : Bool) : Encoded → Decoded
  | .cmd w => decodeCmd hostPrimitives w
  | .prim w => .legal (decodePrim w)

/-- The instruction the decoder reads from a row of opcode_table.json: 32 bits are format C, 11 bits (16 in
whole bytes) are format P. A row of the table is read as in a build that admits it, so `HOST_PRIMITIVES` is
true here (log 23). -/
def decodeTableWord (nbits w : Nat) : Option Instr :=
  if nbits ≤ 16 then
    if w < 2 ^ 11 then some (decodePrim (BitVec.ofNat 11 w)) else none
  else if w < 2 ^ 32 then
    match decodeCmd true (BitVec.ofNat 32 w) with
    | .legal i => some i
    | .illegal _ => none
  else none

end Sys2Proof
end

