-- ==== Sys2Proof/Machine/State.lean ====
section
/-! DEFINITION. The state of the machine (10_state.md), its value after reset (R40), and the reasons a step can
stop. Beside the block's own registers (R20) the State holds what belongs to the other agents of R174: the pins
the host drives, the caller's two views (R39), the peripheral (R35, R36, R38), and the moves these agents make
(log 1). -/

namespace Sys2Proof.Machine

/-- `seq`, the sequencer state register, the block's program counter (R21). -/
inductive Seq where
  /-- `SEQ_IDLE`, 0: a command can be accepted. -/
  | idle
  /-- `SEQ_START`, 1: the first Start of a transaction. -/
  | start
  /-- `SEQ_ADDR_W`, 2: the address byte with direction WRITE. -/
  | addrW
  /-- `SEQ_TX`, 3: transmit-buffer byte `idx`. -/
  | tx
  /-- `SEQ_RSTART`, 4: the repeated Start of WRITE_THEN_READ. -/
  | rstart
  /-- `SEQ_ADDR_R`, 5: the address byte with direction READ. -/
  | addrR
  /-- `SEQ_RX`, 6: receive-buffer byte `idx`. -/
  | rx
  /-- `SEQ_STOP`, 7: the terminal Stop. -/
  | stop
  /-- `SEQ_PRIM`, 8: one primitive issued by the host. -/
  | prim
  deriving DecidableEq, Repr

/-- `pstep`: where inside a blocking primitive the block is (R22). -/
inductive PStep where
  /-- `P_ISSUE`, 0. -/
  | issue
  /-- `P_WAIT`, 1. -/
  | wait
  deriving DecidableEq, Repr

/-- `phase`, the bus-level state (R23). -/
inductive Phase where
  /-- `Idle`, 0. -/
  | idle
  /-- `AddressPhase`, 1. -/
  | address
  /-- `DataPhase`, 2. -/
  | data
  deriving DecidableEq, Repr

/-- The encoding of `seq` (R21, R88). -/
def Seq.toBits : Seq → BitVec 4
  | .idle => 0
  | .start => 1
  | .addrW => 2
  | .tx => 3
  | .rstart => 4
  | .addrR => 5
  | .rx => 6
  | .stop => 7
  | .prim => 8

/-- The encoding of `pstep` (R22, R88). -/
def PStep.toBits : PStep → BitVec 1
  | .issue => 0
  | .wait => 1

/-- The encoding of `phase`, which `phase_o` shows (R23, R31, R88). -/
def Phase.toBits : Phase → BitVec 2
  | .idle => 0
  | .address => 1
  | .data => 2

/-- The four bus primitives (R110). -/
inductive Prim where
  | start
  | stop
  | write
  | read
  deriving DecidableEq, Repr

/-- The event alphabet (R11). -/
inductive Event where
  | reqStart
  | reqStop
  | reqWrite (b : Byte)
  | reqRead (k : Ack)
  | done
  | doneRead (b : Byte)
  deriving DecidableEq, Repr

/-- A call of the Peripheral Register Interface, with what it returned (R34). -/
inductive PriCall where
  | setControlBit (f : CtrlFlag)
  | clearControlBit (f : CtrlFlag)
  | waitUntilAsserted (r : PeriphReg) (f : CtrlFlag)
  | readDataRegister (b : Byte)
  | writeDataRegister (b : Byte)
  | setRateDivisor (v : Nat)
  deriving DecidableEq, Repr

/-- The outputs that are pulses of one step, as the last step drove them (R31, R32, R33). A data output is 0
when its valid output is not 1 (R40, log 21). -/
structure Outputs where
  cmdDone : Bool
  initReq : Bool
  primValid : Bool
  primOp : BitVec 2
  primAck : BitVec 1
  primWdata : Byte
  rxWe : Bool
  rxIdx : Count
  rxData : Byte
  deriving DecidableEq, Repr

/-- No output is raised: the values after reset (R40). -/
def Outputs.quiet : Outputs :=
  { cmdDone := false, initReq := false, primValid := false, primOp := 0, primAck := 0, primWdata := 0,
    rxWe := false, rxIdx := 0, rxData := 0 }

/-- A bus phase inside the peripheral (R218, R38). -/
inductive BusPhase where
  /-- A START condition is being driven. -/
  | startCondition
  /-- A STOP condition is being driven. -/
  | stopCondition
  /-- This byte is being transmitted. -/
  | transmit (b : Byte)
  /-- A byte is being received. -/
  | receive
  deriving DecidableEq, Repr

/-- What the peripheral tracks of the frame by itself (R218; the four names are the model's, log 13). -/
inductive Tracking where
  /-- No frame is open. -/
  | noFrame
  /-- A START has been driven, so the next byte is an address byte. -/
  | addressNext
  /-- The last address byte had direction WRITE. -/
  | transmitting
  /-- The last address byte had direction READ. -/
  | receiving
  deriving DecidableEq, Repr

/-- The peripheral: the flags of R35, the registers of R36, the hidden state of R38 and R218. -/
structure Periph where
  /-- `F_START`. -/
  fStart : Bool
  /-- `F_STOP`. -/
  fStop : Bool
  /-- `F_ACK`. -/
  fAck : Bool
  /-- `F_GO`. -/
  fGo : Bool
  /-- `F_DONE`, which the block sees as `prim_done` (R33, R219). -/
  fDone : Bool
  /-- `F_EN`. -/
  fEn : Bool
  /-- `REG_STATUS`, a result code (width not in the source, log 12). -/
  regStatus : Nat
  /-- `REG_DATA`, which the block sees as `prim_rdata` (R33). -/
  regData : Byte
  /-- `REG_RATE` (width not in the source, log 12). -/
  regRate : Nat
  /-- `PRESCALE` (width not in the source, log 12). Which register holds it is not in the source either; that it is one
  of its own, apart from the other registers, is the model's choice (log 35). -/
  prescale : Nat
  /-- The bus phase in flight, or the STOP still being driven (R38 a, b). -/
  inFlight : Option BusPhase
  /-- The direction the peripheral tracks by itself (R218). -/
  tracking : Tracking
  /-- The slave's acknowledge of the last transmitted byte (R38 c, U15). -/
  slaveAck : Bool
  deriving DecidableEq, Repr

/-- The peripheral after power-on. The source gives none of these values (R40, N4): DESIGN CHOICE, log 5. -/
def Periph.powerOn : Periph :=
  { fStart := false, fStop := false, fAck := false, fGo := false, fDone := false, fEn := false,
    regStatus := 0, regData := 0, regRate := 0, prescale := 0,
    inFlight := none, tracking := .noFrame, slaveAck := false }

/-- A byte buffer: the bytes that are defined, by index (R39, R60). -/
abbrev Memory := List Host.Cell

/-- The canonical form of a byte buffer: indices strictly rising and inside the 8-bit index space. An index
that is not listed has no value, so no listed byte is ever superfluous. -/
abbrev Memory.wf (m : Memory) : Prop :=
  m.Pairwise (fun c d => c.1 < d.1) ∧ ∀ c ∈ m, c.1 < 256

/-- A move of the host or of the peripheral between two steps of the block (R174, log 1). -/
inductive EnvMove where
  /-- The host presents this command word (R31). -/
  | present (w : CmdWord)
  /-- The host presents no command any more. -/
  | withdraw
  /-- The host drives the reset pin to this level (R230). -/
  | setRst (level : Bool)
  /-- The host passes a transmit view of these bytes (R60, R72). -/
  | passTxView (bytes : List Byte)
  /-- The host passes a receive view of this many bytes (R60, R72). -/
  | passRxView (capacity : Nat)
  /-- The caller stores a byte in its transmit view (R70, R238). -/
  | storeTx (i : Count) (b : Byte)
  /-- The caller stores a byte in its receive view, of which it has `rxCap` bytes (R238). -/
  | storeRx (i : Count) (b : Byte)
  /-- The peripheral takes the START or STOP request and clears its flag (R218). -/
  | takeRequest
  /-- The peripheral finishes a START or byte phase, with the content of the data register after a byte, its
  result code, and the slave's acknowledge of a transmitted byte (R219, R220). -/
  | phaseDone (data : Byte) (status : Nat) (slaveAck : Bool)
  /-- The peripheral finishes driving a STOP. What it then does to `F_DONE` is not specified (R219, U10), so
  the move says. -/
  | stopDriven (done : Bool) (status : Nat)
  deriving DecidableEq, Repr

/-- The state of the machine. -/
structure State where
  /-- Build parameters (R7). No step changes them (R96). -/
  params : Params
  /-- The pin `rst` (R31). -/
  rst : Bool
  /-- The command port: `some w` is `cmd_valid` = 1 with `cmd_word` = `w` (R31, log 2). -/
  cmdPort : Option CmdWord
  /-- The sequencer state register (R21). -/
  seq : Seq
  /-- Issue or wait (R22). -/
  pstep : PStep
  /-- The bus-level state (R23). -/
  phase : Phase
  /-- The opcode latch (R24). -/
  op : Opcode
  /-- The slave address latch (R24). -/
  addr : SlaveAddr
  /-- The transmit length latch (R24). -/
  txlen : Count
  /-- The receive count latch, which carries `d8` or `k` of a host primitive (R24, R121). -/
  rxcnt : Count
  /-- The loop index (R25). -/
  idx : Count
  /-- The byte of the last host-issued `READ_BYTE` (R28). -/
  rspData : Byte
  /-- An `INIT` has completed since reset (R29). -/
  inited : Bool
  /-- The pulses of the last step (R31 to R33). -/
  out : Outputs
  /-- The caller's transmit view (R39, R61). -/
  tx : Memory
  /-- The caller's receive view (R39, R62). -/
  rx : Memory
  /-- How many bytes the caller's receive storage has (R72). -/
  rxCap : Nat
  /-- The peripheral (R36). -/
  periph : Periph
  /-- The event trace, oldest first (R11). -/
  trace : List Event
  /-- The calls of the Peripheral Register Interface, oldest first (R11, R34). -/
  calls : List PriCall
  /-- What the host and the peripheral do, one slot of moves a step (R174, log 1). -/
  env : List (List EnvMove)
  /-- Which free value is drawn next (log 7, log 9). -/
  freeCtr : Nat
  deriving DecidableEq, Repr

/-- The state after reset (R40, R231). The block's own values are R40's; the operand latches, `idx` and
`rspData` are unspecified there and hold 0 (DESIGN CHOICE, log 4); for the parameters see log 3, for the
peripheral log 5, for the caller's views log 6. -/
def State.reset : State :=
  { params := { hostPrimitives := false, stopThenStartOk := false }
    rst := false
    cmdPort := none
    seq := .idle
    pstep := .issue
    phase := .idle
    op := 0
    addr := 0
    txlen := 0
    rxcnt := 0
    idx := 0
    rspData := 0
    inited := false
    out := Outputs.quiet
    tx := []
    rx := []
    rxCap := 256
    periph := Periph.powerOn
    trace := []
    calls := []
    env := []
    freeCtr := 0 }

/-- The faults of the block: none. "The set of exception codes is therefore empty" (R210), so the type has no
constructor and no step can answer with one. -/
inductive Fault where
  deriving DecidableEq, Repr

/-- Situations the spec gives no meaning (`refuse`, R9). Each is safe: the model stops where the block, which
detects none of them, would go on. -/
inductive Refusal where
  /-- No meaning written yet for this instruction; raised by arms of exec only. Safe. -/
  | notModelled (mnemonic : String)
  /-- The presented word is illegal; raised by the fetch of a command word and by the four host primitives in a
  build without them (R89, U1). Safe. -/
  | illegalWord (why : IllegalWord)
  /-- A transaction command or host primitive before `INIT`; raised by their acceptance (R205, U3). Safe. -/
  | notInitialised
  /-- A transaction command or `INIT` while `phase` is not `Idle`; raised by their acceptance (R122, U2).
  Safe. -/
  | frameOpen
  /-- A primitive outside the bus-phase machine; raised by the acceptance of a host primitive and by the four
  primitives (R111, R122, U2). Safe. -/
  | outsideBusPhaseMachine
  /-- A START requested while a STOP is still being driven, in a build where the peripheral does not allow it;
  raised by PRIM_START (R236, U9). Safe. -/
  | startDuringStop
  /-- A received byte at an index beyond the caller's storage; raised by the completion of PRIM_READ (R72, U6).
  Safe. -/
  | receiveBeyondStorage
  /-- A primitive that is not the one `seq` names, for which R120 gives no step; raised by the four primitives.
  No step of the machine issues one. Safe. -/
  | primitiveNotRequested
  /-- A combination of `seq`, `pstep` and `op` that no rule reaches: SEQ_STOP with P_WAIT (R22), or SEQ_PRIM
  with `op` no primitive (R121); raised by the sequencer and by PRIM_STOP. Safe. -/
  | unreachableSequencerState
  deriving DecidableEq, Repr

/-- What a step answers. -/
abbrev Result := Host.Outcome State Fault Refusal

end Sys2Proof.Machine
end

