-- ==== Sys2Proof/Machine/Operands.lean ====
section
/-! DEFINITION. The operands of the primitives and the whole arithmetic of the block (R147): the address byte
(sub-block `address_direction_framer`, R140), the AckDecision (sub-block `ack_nack_controller`, R142), the choice
of the next state (R166), and which primitive with which operand the sequencer issues in a state (R165, R121).
Also the reads and writes of a byte buffer (R60 to R62). -/

namespace Sys2Proof.Machine

/-- The byte at an index, `none` where the caller defined none. -/
def Memory.read : Memory → Nat → Option Byte
  | [], _ => none
  | (i, b) :: m, j => if j = i then some b else Memory.read m j

/-- Store a byte at an index, keeping the canonical form. -/
def Memory.write : Memory → Nat → Byte → Memory
  | [], j, v => [(j, v)]
  | (i, b) :: m, j, v =>
    if j < i then (j, v) :: (i, b) :: m
    else if j = i then (j, v) :: m
    else (i, b) :: Memory.write m j v

/-- The buffer that holds these bytes from index `i` on. -/
def Memory.ofBytesFrom : Nat → List Byte → Memory
  | _, [] => []
  | i, b :: bs => (i, b) :: Memory.ofBytesFrom (i + 1) bs

/-- A view of these bytes, byte 0 first; the index space has 256 places (R39). -/
def Memory.ofBytes (bytes : List Byte) : Memory := Memory.ofBytesFrom 0 (bytes.take 256)

/-- `frame(a, d) = (zext_8(a) << 1) | zext_8(d)` (R140). -/
def frame (a : SlaveAddr) (d : Dir) : Byte := (a.setWidth 8 <<< 1) ||| d.toBit.setWidth 8

/-- `ackDecision(i, c)`: NACK exactly for the last byte (R142). For `c = 0`, where the rule says it is never
evaluated, the subtraction wraps (log 25). -/
def ackDecision (i c : Count) : Ack := if i = c - 1 then .nack else .ack

/-- The opcode that WRITE_THEN_READ leaves in `op` (R82). -/
abbrev opWriteThenRead : Opcode := CmdRow.opcode .writeThenRead

/-- `next_data_state(op, d, i)` (R166): the state after an address byte or a data byte, an empty loop being
skipped in the same step. -/
def nextDataState (op : Opcode) (txlen rxcnt : Count) (d : Dir) (i : Count) : Seq :=
  match d with
  | .write => if i < txlen then .tx else if op = opWriteThenRead then .rstart else .stop
  | .read => if i < rxcnt then .rx else .stop

/-- The primitive that the state names (R165; R121 for `SEQ_PRIM`). `none` in `SEQ_IDLE`, and in `SEQ_PRIM` when
`op` is no primitive's opcode, which no rule reaches. -/
def State.primitive (s : State) : Option Prim :=
  match s.seq with
  | .idle => none
  | .start => some .start
  | .addrW => some .write
  | .tx => some .write
  | .rstart => some .start
  | .addrR => some .write
  | .rx => some .read
  | .stop => some .stop
  | .prim =>
    if s.op = CmdRow.opcode .start then some .start
    else if s.op = CmdRow.opcode .stop then some .stop
    else if s.op = CmdRow.opcode .writeByte then some .write
    else if s.op = CmdRow.opcode .readByte then some .read
    else none

/-- `MemRead(TX, idx, 1)` (R61). At an index the caller's view does not cover the value is free (U6, log 7). -/
def State.txByte (s : State) : Byte :=
  match Memory.read s.tx s.idx.toNat with
  | some b => b
  | none => Config.freeByte s.freeCtr 0

/-- The byte of the WriteByte that the state issues (R165; R121: `data = rxcnt`). -/
def State.writeOperand (s : State) : Byte :=
  match s.seq with
  | .addrW => frame s.addr .write
  | .tx => s.txByte
  | .addrR => frame s.addr .read
  | .prim => s.rxcnt
  | .idle => 0
  | .start => 0
  | .rstart => 0
  | .rx => 0
  | .stop => 0

/-- The AckDecision of the ReadByte that the state issues (R165, R27; R121: `ack = rxcnt[0]`). -/
def State.readOperand (s : State) : Ack :=
  match s.seq with
  | .rx => ackDecision s.idx s.rxcnt
  | .prim => Ack.ofBit (s.rxcnt.getLsbD 0)
  | .idle => .nack
  | .start => .nack
  | .addrW => .nack
  | .tx => .nack
  | .rstart => .nack
  | .addrR => .nack
  | .stop => .nack

/-- The word the sequencer puts on the primitive request port at an issue step (R33, R84). -/
def State.requestWord (s : State) : Option PrimWord :=
  match s.primitive with
  | some .start => some (primWord 0 .nack 0)
  | some .stop => some (primWord 1 .nack 0)
  | some .write => some (primWord 2 .nack s.writeOperand)
  | some .read => some (primWord 3 s.readOperand 0)
  | none => none

/-- `cmd_ready` (R31). -/
def State.cmdReady (s : State) : Bool := s.seq == .idle && !s.rst

/-- `busy` (R31). -/
def State.busy (s : State) : Bool := s.seq != .idle

/-- `phase_o` (R31). -/
def State.phaseO (s : State) : BitVec 2 := s.phase.toBits

/-- `tx_idx`: `idx` in `SEQ_TX` (R32), and 0 elsewhere (log 21). -/
def State.txIdx (s : State) : Count := if s.seq = .tx then s.idx else 0

end Sys2Proof.Machine
end

