-- ==== Sys2Proof/Machine/Flags.lean ====
section
/-! DEFINITION. The flags of the peripheral's control register and the Peripheral Register Interface (R34, R35),
and the contract of the peripheral: what a trigger starts (R218), the completion flag (R219), the received byte
(R220). No arithmetic result sets a flag anywhere in the block (R147). -/

namespace Sys2Proof.Machine

/-- The value of a flag. -/
def Periph.flag (p : Periph) : CtrlFlag → Bool
  | .fStart => p.fStart
  | .fStop => p.fStop
  | .fAck => p.fAck
  | .fGo => p.fGo
  | .fDone => p.fDone
  | .fEn => p.fEn

/-- The bus phase that the flags and the data register describe (R218): a START if `F_START` is set, a STOP if
`F_STOP` is set, otherwise one byte in the direction the peripheral tracks. A byte with no frame open is taken as
transmitted (log 13). -/
def Periph.described (p : Periph) : BusPhase :=
  if p.fStart then .startCondition
  else if p.fStop then .stopCondition
  else match p.tracking with
    | .receiving => .receive
    | .noFrame => .transmit p.regData
    | .addressNext => .transmit p.regData
    | .transmitting => .transmit p.regData

/-- Setting `F_GO`: the described phase begins (R218), `F_DONE` is cleared at once (R219), and the peripheral
clears `F_GO` at once (R35). -/
def Periph.trigger (p : Periph) : Periph :=
  { p with fGo := false, fDone := false, inFlight := some p.described }

/-- `setControlBit(flag)` (R34), which for `F_GO` is the trigger (R116). -/
def Periph.setControlBit (p : Periph) : CtrlFlag → Periph
  | .fStart => { p with fStart := true }
  | .fStop => { p with fStop := true }
  | .fAck => { p with fAck := true }
  | .fGo => p.trigger
  | .fDone => { p with fDone := true }
  | .fEn => { p with fEn := true }

/-- `clearControlBit(flag)` (R34). -/
def Periph.clearControlBit (p : Periph) : CtrlFlag → Periph
  | .fStart => { p with fStart := false }
  | .fStop => { p with fStop := false }
  | .fAck => { p with fAck := false }
  | .fGo => { p with fGo := false }
  | .fDone => { p with fDone := false }
  | .fEn => { p with fEn := false }

/-- The peripheral has taken the START or STOP request and clears its flag (R218). -/
def Periph.takeRequest (p : Periph) : Periph := { p with fStart := false, fStop := false }

/-- The direction tracked after a byte has been transmitted: an address byte sets it by its bit 0 (R85, R218). -/
def Tracking.afterTransmit (t : Tracking) (b : Byte) : Tracking :=
  match t with
  | .addressNext => if b.getLsbD 0 then .receiving else .transmitting
  | .noFrame => .noFrame
  | .transmitting => .transmitting
  | .receiving => .receiving

/-- The peripheral finishes the START or byte phase in flight and sets `F_DONE` (R219). After a received byte
the data register holds what was sampled (R220); after a transmitted byte its content is not in the source, so it
comes from outside too (log 14). Without such a phase in flight nothing happens. -/
def Periph.phaseDone (p : Periph) (data : Byte) (status : Nat) (ack : Bool) : Periph :=
  match p.inFlight with
  | some .startCondition =>
    { p with
      fStart := false, fStop := false, fDone := true, regStatus := status
      inFlight := none, tracking := .addressNext }
  | some (.transmit b) =>
    { p with
      fDone := true, regStatus := status, regData := data, slaveAck := ack
      inFlight := none, tracking := p.tracking.afterTransmit b }
  | some .receive => { p with fDone := true, regStatus := status, regData := data, inFlight := none }
  | some .stopCondition => p
  | none => p

/-- The peripheral finishes driving a STOP; `F_DONE` then has any value (R219, U10, log 26). -/
def Periph.stopDriven (p : Periph) (done : Bool) (status : Nat) : Periph :=
  match p.inFlight with
  | some .stopCondition =>
    { p with fStop := false, fDone := done, regStatus := status, inFlight := none, tracking := .noFrame }
  | some .startCondition => p
  | some (.transmit _) => p
  | some .receive => p
  | none => p

/-- A bus phase of which nothing is known (log 9). -/
def BusPhase.free (draw : Nat) : Option BusPhase :=
  match Config.freeNat draw 0 with
  | 0 => none
  | 1 => some .startCondition
  | 2 => some .stopCondition
  | 3 => some (.transmit (Config.freeByte draw 1))
  | _ => some .receive

/-- A tracked direction of which nothing is known (log 9). -/
def Tracking.free (draw : Nat) : Tracking :=
  match Config.freeNat draw 1 with
  | 0 => .noFrame
  | 1 => .addressNext
  | 2 => .transmitting
  | _ => .receiving

/-- A peripheral of which nothing is known: every field is a free value (R232, U4, log 9). -/
def Periph.unconstrained (draw : Nat) : Periph :=
  { fStart := Config.freeBit draw 0
    fStop := Config.freeBit draw 1
    fAck := Config.freeBit draw 2
    fGo := Config.freeBit draw 3
    fDone := Config.freeBit draw 4
    fEn := Config.freeBit draw 5
    regStatus := Config.freeNat draw 2
    regData := Config.freeByte draw 2
    regRate := Config.freeNat draw 3
    prescale := Config.freeNat draw 4
    inFlight := BusPhase.free draw
    tracking := Tracking.free draw
    slaveAck := Config.freeBit draw 6 }

end Sys2Proof.Machine
end

