-- ==== Sys2Proof/Machine/Ops.lean ====
section
/-! DEFINITION. The shared operations of the step: events (R9), calls of the register interface (R34), the
bus-phase table (R111), the three steps of a primitive (R120), the move of the sequencer at a completion (R165,
R121), reset (R230), and the moves of the other agents (R174). There is no exception to take and none to return
from (R210, R215, R216): a condition the bus defines and the block does not detect has no operation here. -/

namespace Sys2Proof.Machine

/-- `emit(e)` (R9, R11). -/
def State.emit (s : State) (e : Event) : State := { s with trace := s.trace ++ [e] }

/-- The call `setControlBit(flag)` (R34). -/
def State.setControlBit (s : State) (f : CtrlFlag) : State :=
  { s with periph := s.periph.setControlBit f, calls := s.calls ++ [.setControlBit f] }

/-- The call `clearControlBit(flag)` (R34). -/
def State.clearControlBit (s : State) (f : CtrlFlag) : State :=
  { s with periph := s.periph.clearControlBit f, calls := s.calls ++ [.clearControlBit f] }

/-- The call `writeDataRegister(b)` (R34). -/
def State.writeDataRegister (s : State) (b : Byte) : State :=
  { s with periph := { s.periph with regData := b }, calls := s.calls ++ [.writeDataRegister b] }

/-- The call `setRateDivisor(v)` (R34). -/
def State.setRateDivisor (s : State) (v : Nat) : State :=
  { s with periph := { s.periph with regRate := v }, calls := s.calls ++ [.setRateDivisor v] }

/-- The call `waitUntilAsserted(REG_CTRL, F_DONE)` has returned (R116, log 20). -/
def State.waitReturned (s : State) : State :=
  { s with calls := s.calls ++ [.waitUntilAsserted .ctrl .fDone] }

/-- The call `readDataRegister()` has returned the data register (R34, R115). That the read leaves the register and
the rest of the peripheral as they were is the model's choice: the source does not say (R65, N18, U17, log 34). -/
def State.readDataRegister (s : State) : State :=
  { s with calls := s.calls ++ [.readDataRegister s.periph.regData] }

/-- The bus-phase table (R111). `none` is a pair outside the document's machine. -/
def phaseAfter : Phase → Prim → Option Phase
  | .idle, .start => some .address
  | .address, .write => some .data
  | .data, .write => some .data
  | .data, .read => some .data
  | .data, .start => some .address
  | .data, .stop => some .idle
  | .idle, .write => none
  | .idle, .read => none
  | .idle, .stop => none
  | .address, .start => none
  | .address, .read => none
  | .address, .stop => none

/-- The outputs of an issue step: the fields of the request word on the primitive request port (R33, R84). -/
def Outputs.request (w : PrimWord) : Outputs :=
  { Outputs.quiet with
    primValid := true
    primOp := w.extractLsb' 9 2
    primAck := w.extractLsb' 8 1
    primWdata := w.extractLsb' 0 8 }

/-- `seq` after the completion of a blocking primitive: the fourth column of R165, and `SEQ_IDLE` for a host-issued
primitive (R121). Stop completes no such step (R113). -/
def State.nextSeq (s : State) : Seq :=
  match s.seq with
  | .start => if s.op = CmdRow.opcode .readBurst then .addrR else .addrW
  | .addrW => nextDataState s.op s.txlen s.rxcnt .write 0
  | .tx => nextDataState s.op s.txlen s.rxcnt .write (s.idx + 1)
  | .rstart => .addrR
  | .addrR => nextDataState s.op s.txlen s.rxcnt .read 0
  | .rx => nextDataState s.op s.txlen s.rxcnt .read (s.idx + 1)
  | .prim => .idle
  | .stop => .stop
  | .idle => .idle

/-- `idx` after the completion of a blocking primitive: the third column of R165 (R25). -/
def State.nextIdx (s : State) : Count :=
  match s.seq with
  | .addrW => 0
  | .addrR => 0
  | .tx => s.idx + 1
  | .rx => s.idx + 1
  | .start => s.idx
  | .rstart => s.idx
  | .prim => s.idx
  | .stop => s.idx
  | .idle => s.idx

/-- `seq`, `idx` and `cmd_done` at the completion of a blocking primitive (R165, R121). -/
def State.advance (s : State) : State :=
  { s with seq := s.nextSeq, idx := s.nextIdx, out := { s.out with cmdDone := s.seq == .prim } }

/-- Where a received byte goes (R115): `MemWrite(RX, idx, 1, b)` in `SEQ_RX` (R62), `rsp_data` in `SEQ_PRIM`
(R121). `none` is a write beyond the caller's storage (R72, U6). -/
def State.storeReceived (s : State) (b : Byte) : Option State :=
  match s.seq with
  | .rx =>
    if s.idx.toNat < s.rxCap then
      some { s with
        rx := Memory.write s.rx s.idx.toNat b
        out := { s.out with rxWe := true, rxIdx := s.idx, rxData := b } }
    else none
  | .prim => some { s with rspData := b }
  | .idle => some s
  | .start => some s
  | .addrW => some s
  | .tx => some s
  | .rstart => some s
  | .addrR => some s
  | .stop => some s

/-- The completion step of Start (R112). -/
def completeStart (s : State) (after : Phase) : Result :=
  .next { ({ s with out := Outputs.quiet }.waitReturned.emit .done).advance with phase := after, pstep := .issue }

/-- The completion step of WriteByte (R114). No acknowledge of the slave enters (R118). -/
def completeWrite (s : State) (after : Phase) : Result :=
  .next { ({ s with out := Outputs.quiet }.waitReturned.emit .done).advance with phase := after, pstep := .issue }

/-- The completion step of ReadByte (R115). -/
def completeRead (s : State) (after : Phase) : Result :=
  let b := s.periph.regData
  match ({ s with out := Outputs.quiet }.waitReturned.readDataRegister.emit (.doneRead b)).storeReceived b with
  | some t => .next { t.advance with phase := after, pstep := .issue }
  | none => .refused .receiveBeyondStorage

/-- The hold: the block has no step, it polls (R120, R117); only the pulses of the step before end. -/
def State.hold (s : State) : State := { s with out := Outputs.quiet }

/-- A blocking primitive that has been requested: hold until `F_DONE`, then the completion step (R120). Stop has
no such state (R22, R113). -/
def resume (k : Prim) (s : State) : Result :=
  match k with
  | .stop => .refused .unreachableSequencerState
  | .start =>
    if s.periph.fDone then
      match phaseAfter s.phase .start with
      | some after => completeStart s after
      | none => .refused .outsideBusPhaseMachine
    else .next s.hold
  | .write =>
    if s.periph.fDone then
      match phaseAfter s.phase .write with
      | some after => completeWrite s after
      | none => .refused .outsideBusPhaseMachine
    else .next s.hold
  | .read =>
    if s.periph.fDone then
      match phaseAfter s.phase .read with
      | some after => completeRead s after
      | none => .refused .outsideBusPhaseMachine
    else .next s.hold

/-- A reset now would break off a frame: `busy` is 1, or a host's frame is open (R232). -/
def State.midFrame (s : State) : Bool := s.seq != .idle || s.phase != .idle

/-- The step with `rst` = 1 (R230): the block takes the values of R40 and nothing else happens. The latches,
`idx` and `rspData`, unspecified in R40, take their values of State.reset (log 4). If a frame was broken off, the
peripheral is unconstrained from here on (R232, log 9). -/
def State.resetStep (s : State) : State :=
  { s with
    seq := .idle, pstep := .issue, phase := .idle, inited := false, out := Outputs.quiet
    op := State.reset.op, addr := State.reset.addr, txlen := State.reset.txlen, rxcnt := State.reset.rxcnt
    idx := State.reset.idx, rspData := State.reset.rspData
    periph := if s.midFrame then Periph.unconstrained s.freeCtr else s.periph
    freeCtr := if s.midFrame then s.freeCtr + 1 else s.freeCtr }

/-- No command is presented in `SEQ_IDLE`: nothing happens (R231). -/
def State.idleStep (s : State) : State := { s with out := Outputs.quiet }

/-- One move of the host or the peripheral (R174). -/
def State.envMove (s : State) : EnvMove → State
  | .present w => { s with cmdPort := some w }
  | .withdraw => { s with cmdPort := none }
  | .setRst level => { s with rst := level }
  | .passTxView bytes => { s with tx := Memory.ofBytes bytes }
  | .passRxView capacity => { s with rx := [], rxCap := capacity }
  | .storeTx i b => { s with tx := Memory.write s.tx i.toNat b }
  | .storeRx i b => if i.toNat < s.rxCap then { s with rx := Memory.write s.rx i.toNat b } else s
  | .takeRequest => { s with periph := s.periph.takeRequest }
  | .phaseDone data status ack => { s with periph := s.periph.phaseDone data status ack }
  | .stopDriven done status => { s with periph := s.periph.stopDriven done status }

/-- The moves of one slot, in order. -/
def State.envMoves (s : State) (moves : List EnvMove) : State := moves.foldl State.envMove s

/-- The host and the peripheral move after the block's step: the next slot of `env` (R174, log 1). With no slot
left they do nothing. -/
def State.envStep (s : State) : State :=
  match s.env with
  | [] => s
  | slot :: rest => { s with env := rest }.envMoves slot

/-- A result of the block's step, followed by the moves of the other agents. -/
def thenEnvironment (r : Result) : Result :=
  match r with
  | .next t => .next t.envStep
  | .fault f => .fault f
  | .refused e => .refused e

/-- What every command does before its own acceptance: `rst` overrides it (R214 a), and while the block is busy
it is not accepted and waits at the port, changing nothing (R161, R214 b, log 16). -/
def onCommandPort (s : State) (accept : Result) : Result :=
  if s.rst then .next s.resetStep
  else if s.seq = .idle then accept
  else .next s

/-- The frame of every primitive: `rst` overrides it (R214 a); it must be the primitive `seq` names (R120); at
P_ISSUE its issue step is taken if the pair of `phase` and primitive is in the table of R111; at P_WAIT it holds
or completes. -/
def onRequestPort (k : Prim) (s : State) (issue : Result) : Result :=
  if s.rst then .next s.resetStep
  else if s.primitive = some k then
    match s.pstep with
    | .issue =>
      match phaseAfter s.phase k with
      | some _ => issue
      | none => .refused .outsideBusPhaseMachine
    | .wait => resume k s
  else .refused .primitiveNotRequested

end Sys2Proof.Machine
end

