-- ==== Sys2Proof/Machine/HostPrimitives.lean ====
section
/-! DEFINITION. The host-issued primitives START, STOP, WRITE_BYTE, READ_BYTE (R121). The meaning of the command
is its acceptance; the primitive then runs from SEQ_PRIM by PRIM_START, PRIM_STOP, PRIM_WRITE or PRIM_READ. -/

namespace Sys2Proof.Machine

/-- Acceptance of a host-issued primitive (R121): in a build with HOST_PRIMITIVES (R89), after `INIT` (R205), and
when the pair of `phase` and primitive is in the table of R111 (R122). `rxc` carries `d8` or `k`. `addr` and
`txlen` keep their values (log 18). -/
def acceptHostPrimitive (row : CmdRow) (k : Prim) (rxc : Byte) (s : State) : Result :=
  onCommandPort s <|
    if !s.params.hostPrimitives then .refused (.illegalWord (.hostPrimitivesOff row))
    else if !s.inited then .refused .notInitialised
    else match phaseAfter s.phase k with
      | none => .refused .outsideBusPhaseMachine
      | some _ =>
        .next { s with
          cmdPort := none, op := row.opcode, rxcnt := rxc, seq := .prim, pstep := .issue, out := Outputs.quiet }

/-- START (R112, R121). -/
def execStart (s : State) : Result := acceptHostPrimitive .start .start 0 s

/-- STOP (R113, R121). -/
def execStop (s : State) : Result := acceptHostPrimitive .stop .stop 0 s

/-- WRITE_BYTE (R114, R121): the data byte travels in the latch `rxcnt`. -/
def execWriteByte (d : Byte) (s : State) : Result := acceptHostPrimitive .writeByte .write d s

/-- READ_BYTE (R115, R121): the AckDecision travels in bit 0 of the latch `rxcnt`. -/
def execReadByte (k : Ack) (s : State) : Result := acceptHostPrimitive .readByte .read (ackByte k) s

end Sys2Proof.Machine
end

