-- ==== Sys2Proof/Machine/Initialize.lean ====
section
/-! DEFINITION. The system command INIT (43_initialize.md) and the configuration step of the collaborator. -/

namespace Sys2Proof.Machine

/-- What the collaborator does on `init_req`, in the document's order (R201): the clock-prescale configuration,
for which the source names no operation (N5), the rate divisor, the enable. The values have none in the spec
(U19, log 10). The prescale configuration is a register of its own, so no other register changes with it
(log 35). -/
def State.configurePeripheral (s : State) : State :=
  ({ s with periph := { s.periph with prescale := Config.prescaleCfg } }.setRateDivisor
    Config.rateDiv).setControlBit .fEn

/-- INIT (R200, R201): one step; `init_req` and `cmd_done` are 1, `inited` becomes 1, `seq` stays SEQ_IDLE. It is
refused while a host's frame is open (R122). -/
def execInit (s : State) : Result :=
  onCommandPort s <|
    if s.phase ≠ .idle then .refused .frameOpen
    else
      .next { s.configurePeripheral with
        cmdPort := none, inited := true, out := { Outputs.quiet with initReq := true, cmdDone := true } }

end Sys2Proof.Machine
end

