-- ==== Sys2Proof/Machine/Primitives.lean ====
section
/-! DEFINITION. The four primitives of format P (40_bus_primitives.md): PRIM_START and PRIM_STOP are the sub-block
`start_stop_condition_generator`, PRIM_WRITE and PRIM_READ the byte level of `byte_transaction_sequencer` and
`ack_nack_controller` (R3). Each meaning is the whole rule: issue step, hold, completion step (R120). -/

namespace Sys2Proof.Machine

/-- PRIM_START (R112), a first and a repeated START alike (R123). On a peripheral that does not allow it, a START
while the STOP of the frame before is still being driven has no meaning (R236, U9, log 15). -/
def execPrimStart (s : State) : Result :=
  onRequestPort .start s <|
    if s.periph.inFlight = some .stopCondition && !s.params.stopThenStartOk then .refused .startDuringStop
    else
      .next { ((s.emit .reqStart).setControlBit .fStart).setControlBit .fGo with
        pstep := .wait, out := Outputs.request (primWord 0 .nack 0) }

/-- PRIM_STOP (R113): one step, no hold, no `Done`. It ends the command: `seq` becomes SEQ_IDLE and `cmd_done` is
1 (R167, R121). -/
def execPrimStop (s : State) : Result :=
  onRequestPort .stop s <|
    .next { ((s.emit .reqStop).setControlBit .fStop).setControlBit .fGo with
      phase := .idle, seq := .idle
      out := { Outputs.request (primWord 1 .nack 0) with cmdDone := true } }

/-- PRIM_WRITE (R114). The data register is written before the trigger. The counter of free values moves on,
because in SEQ_TX the byte may have been one (log 7). -/
def execPrimWrite (d : Byte) (s : State) : Result :=
  onRequestPort .write s <|
    .next { ((s.emit (.reqWrite d)).writeDataRegister d).setControlBit .fGo with
      pstep := .wait, out := Outputs.request (primWord 2 .nack d), freeCtr := s.freeCtr + 1 }

/-- The call that configures the acknowledge of the next received byte (R115). -/
def State.configureAck (s : State) (k : Ack) : State :=
  match k with
  | .ack => s.setControlBit .fAck
  | .nack => s.clearControlBit .fAck

/-- PRIM_READ (R115). The acknowledge is configured before the trigger (R144). -/
def execPrimRead (k : Ack) (s : State) : Result :=
  onRequestPort .read s <|
    .next { ((s.emit (.reqRead k)).configureAck k).setControlBit .fGo with
      pstep := .wait, out := Outputs.request (primWord 3 k 0) }

end Sys2Proof.Machine
end

