-- ==== Sys2Proof/Machine/Transactions.lean ====
section
/-! DEFINITION. The transactions WRITE_BURST, READ_BURST, WRITE_THEN_READ (42_transactions.md). The meaning of the
command is its acceptance (R161); from SEQ_START on the sequencer runs it by R165, one primitive after the other,
to the terminal Stop. The repeated Start of WRITE_THEN_READ (sub-block `repeated_start_composer`) is the state
SEQ_RSTART of nextDataState and State.advance. -/

namespace Sys2Proof.Machine

/-- Acceptance of a transaction command (R161): after `INIT` (R205) and with no frame open (R122), the fields are
latched and the sequencer starts. The word leaves the port (log 2). -/
def acceptTransaction (row : CmdRow) (a : SlaveAddr) (txl rxc : Count) (s : State) : Result :=
  onCommandPort s <|
    if !s.inited then .refused .notInitialised
    else if s.phase ≠ .idle then .refused .frameOpen
    else
      .next { s with
        cmdPort := none, op := row.opcode, addr := a, txlen := txl, rxcnt := rxc
        seq := .start, pstep := .issue, out := Outputs.quiet }

/-- WRITE_BURST (R162): the unused field `rxc` of the word is 0. -/
def execWriteBurst (a : SlaveAddr) (n : Count) (s : State) : Result := acceptTransaction .writeBurst a n 0 s

/-- READ_BURST (R163): the unused field `txl` of the word is 0. -/
def execReadBurst (a : SlaveAddr) (c : Count) (s : State) : Result := acceptTransaction .readBurst a 0 c s

/-- WRITE_THEN_READ (R164). -/
def execWriteThenRead (a : SlaveAddr) (m r : Count) (s : State) : Result :=
  acceptTransaction .writeThenRead a m r s

end Sys2Proof.Machine
end

