-- ==== Sys2Proof/Machine/Dispatch.lean ====
section
/-! DEFINITION. The meaning of each instruction, one arm per constructor. -/

namespace Sys2Proof.Machine

def exec (i : Instr) (s : State) : Host.Outcome State Fault Refusal :=
  match i with
  | .init => Sys2Proof.Machine.execInit s
  | .writeBurst a n => Sys2Proof.Machine.execWriteBurst a n s
  | .readBurst a c => Sys2Proof.Machine.execReadBurst a c s
  | .writeThenRead a m r => Sys2Proof.Machine.execWriteThenRead a m r s
  | .start => Sys2Proof.Machine.execStart s
  | .stop => Sys2Proof.Machine.execStop s
  | .writeByte d => Sys2Proof.Machine.execWriteByte d s
  | .readByte k => Sys2Proof.Machine.execReadByte k s
  | .primStart => Sys2Proof.Machine.execPrimStart s
  | .primStop => Sys2Proof.Machine.execPrimStop s
  | .primWrite d => Sys2Proof.Machine.execPrimWrite d s
  | .primRead k => Sys2Proof.Machine.execPrimRead k s

end Sys2Proof.Machine
end

