-- ==== Sys2Proof/Machine/Sequencer.lean ====
section
/-! DEFINITION. What the block runs next (sub-block `i2c_master_fsm`, top level): a command word from the command
port in SEQ_IDLE (R31, R161), a primitive request word of the sequencer at P_ISSUE (R33, R165), the hold or the
completion of the primitive in flight at P_WAIT (R120), or reset (R230). And how a word is placed so that the next
step runs it. -/

namespace Sys2Proof.Machine

/-- What the next step of the block is. -/
inductive Fetched where
  /-- It runs this instruction. -/
  | instr (i : Instr)
  /-- It is no new instruction: reset, an idle step, a hold, a completion, or a refused word. -/
  | settled (r : Result)

/-- The primitive in flight holds or completes (R120). -/
def resumeInFlight (s : State) : Result :=
  match s.primitive with
  | some k => resume k s
  | none => .refused .unreachableSequencerState

/-- The fetch. `rst` comes first (R214 a). -/
def fetch (s : State) : Fetched :=
  if s.rst then .settled (.next s.resetStep)
  else if s.seq = .idle then
    match s.cmdPort with
    | none => .settled (.next s.idleStep)
    | some w =>
      match decodeCmd s.params.hostPrimitives w with
      | .legal i => .instr i
      | .illegal why => .settled (.refused (.illegalWord why))
  else
    match s.pstep with
    | .issue =>
      match s.requestWord with
      | some w => .instr (decodePrim w)
      | none => .settled (.refused .unreachableSequencerState)
    | .wait => .settled (resumeInFlight s)

/-- `s` ready to accept a command at its next step: released from reset and idle (R31), with the word on the
port. -/
def State.presenting (s : State) (w : CmdWord) : State :=
  { s with rst := false, seq := .idle, pstep := .issue, cmdPort := some w }

/-- `s` with what the acceptance guard of this instruction asks for beside the port (R161, R201, R121): `INIT`
has run (R233), no frame is open or, for a host primitive, the frame is where it is legal (R111), and the build
admits it (log 23). -/
def State.withGuardOf (s : State) (i : Instr) : State :=
  match i with
  | .init => { s with phase := .idle }
  | .writeBurst _ _ => { s with inited := true, phase := .idle }
  | .readBurst _ _ => { s with inited := true, phase := .idle }
  | .writeThenRead _ _ _ => { s with inited := true, phase := .idle }
  | .start => { s with params := { s.params with hostPrimitives := true }, inited := true, phase := .idle }
  | .stop => { s with params := { s.params with hostPrimitives := true }, inited := true, phase := .data }
  | .writeByte _ => { s with params := { s.params with hostPrimitives := true }, inited := true, phase := .data }
  | .readByte _ => { s with params := { s.params with hostPrimitives := true }, inited := true, phase := .data }
  | .primStart => s
  | .primStop => s
  | .primWrite _ => s
  | .primRead _ => s

/-- `s` with the sequencer at the issue step of a transaction that requests this primitive with this operand
(R165): a first Start, a terminal Stop, a transmit byte 0 of a one-byte burst, a receive byte 0 of a burst of one
byte (NACK) or two bytes (ACK) (log 23). -/
def State.requesting (s : State) (i : Instr) : State :=
  let t : State := { s with rst := false, pstep := .issue, inited := true }
  match i with
  | .primStart => { t with seq := .start, phase := .idle }
  | .primStop => { t with seq := .stop, phase := .data }
  | .primWrite d =>
    { t with
      seq := .tx, phase := .data, op := CmdRow.opcode .writeBurst, txlen := 1, idx := 0
      tx := Memory.write s.tx 0 d }
  | .primRead k =>
    { t with
      seq := .rx, phase := .data, op := CmdRow.opcode .readBurst, idx := 0
      rxcnt := match k with
        | .nack => 1
        | .ack => 2 }
  | .init => s
  | .writeBurst _ _ => s
  | .readBurst _ _ => s
  | .writeThenRead _ _ _ => s
  | .start => s
  | .stop => s
  | .writeByte _ => s
  | .readByte _ => s

/-- `s` with the command word on the port, ready to be accepted by the next step (log 23). -/
def State.withCmdWord (s : State) (w : CmdWord) : State :=
  match decodeCmd true w with
  | .legal i => (s.presenting w).withGuardOf i
  | .illegal _ => s.presenting w

/-- `s` with the sequencer about to issue this primitive request word (log 23). -/
def State.withPrimWord (s : State) (w : PrimWord) : State := s.requesting (decodePrim w)

end Sys2Proof.Machine
end

