-- ==== Sys2Proof/Machine/Step.lean ====
section
/-! DEFINITION. One step of the machine: the block's step, then the moves of the host and the peripheral. -/

namespace Sys2Proof.Machine

/-- One step (R120, R161, R174, R230). -/
def step (s : State) : Host.Outcome State Fault Refusal :=
  match fetch s with
  | .instr i => thenEnvironment (exec i s)
  | .settled r => thenEnvironment r

/-- `s` with a word of opcode_table.json placed where the next step runs it: 32 bits on the command port, 11 bits
(16 in whole bytes) on the primitive request port (log 23). -/
def State.withFetchWord (s : State) (nbits w : Nat) : State :=
  if nbits ≤ 16 then s.withPrimWord (BitVec.ofNat 11 w) else s.withCmdWord (BitVec.ofNat 32 w)

end Sys2Proof.Machine
end

