-- ==== Sys2Proof/Safety.lean ====
section
/-! DEFINITION. The terms in which statements speak of good states and good runs: the invariants of R41 and their
form for both builds, the discipline of triggers (R222), what the block cannot see (R38), and, for the premise
PERIPH_LIVE (R221), a peripheral that answers every primitive after finitely many steps, with the traces that the
transactions then leave (R162 to R164). -/

namespace Sys2Proof.Machine

/-- The caller's two views hold the same bytes in both states, read byte by byte. -/
structure State.SameViews (s t : State) : Prop where
  tx_bytes : ∀ j, Memory.read t.tx j = Memory.read s.tx j
  rx_bytes : ∀ j, Memory.read t.rx j = Memory.read s.rx j
  capacity : t.rxCap = s.rxCap

/-- What a command or a primitive never touches: the build parameters, the pin `rst`, the moves to come. -/
structure State.SameSurroundings (s t : State) : Prop where
  params_same : t.params = s.params
  rst_same : t.rst = s.rst
  env_same : t.env = s.env

/-- The four operand latches (R24), `inited` (R29), and the build parameters hold the same values. -/
structure State.SameLatches (s t : State) : Prop where
  op_same : t.op = s.op
  addr_same : t.addr = s.addr
  txlen_same : t.txlen = s.txlen
  rxcnt_same : t.rxcnt = s.rxcnt
  inited_same : t.inited = s.inited
  params_same : t.params = s.params

/-- `t` is `s` with a transaction accepted (R161): the latches written, the sequencer at the issue step of the
first Start, everything else of the block, the peripheral and the views as it was, and no pulse. -/
structure State.AcceptedTransaction (s t : State) (op : Opcode) (a : SlaveAddr) (txl rxc : Count) : Prop where
  op_latched : t.op = op
  addr_latched : t.addr = a
  txlen_latched : t.txlen = txl
  rxcnt_latched : t.rxcnt = rxc
  at_start : t.seq = .start
  at_issue : t.pstep = .issue
  phase_same : t.phase = s.phase
  idx_same : t.idx = s.idx
  rsp_same : t.rspData = s.rspData
  inited_same : t.inited = s.inited
  trace_same : t.trace = s.trace
  calls_same : t.calls = s.calls
  periph_same : t.periph = s.periph
  views_same : s.SameViews t
  no_pulse : t.out.cmdDone = false ∧ t.out.initReq = false ∧ t.out.primValid = false ∧ t.out.rxWe = false

/-- `t` is `s` with a host-issued primitive accepted (R121). Of `addr` and `txlen` it says nothing (log 18). -/
structure State.AcceptedHostPrimitive (s t : State) (op : Opcode) (rxc : Count) : Prop where
  op_latched : t.op = op
  rxcnt_latched : t.rxcnt = rxc
  at_prim : t.seq = .prim
  at_issue : t.pstep = .issue
  phase_same : t.phase = s.phase
  idx_same : t.idx = s.idx
  rsp_same : t.rspData = s.rspData
  inited_same : t.inited = s.inited
  trace_same : t.trace = s.trace
  calls_same : t.calls = s.calls
  periph_same : t.periph = s.periph
  views_same : s.SameViews t
  no_pulse : t.out.cmdDone = false ∧ t.out.initReq = false ∧ t.out.primValid = false ∧ t.out.rxWe = false

/-- The issue step of a blocking primitive (R120, R33): the event, the calls, the trigger; `pstep` becomes P_WAIT,
the request port shows the primitive for this step, and neither `seq`, `phase`, `idx` nor a latch changes. -/
structure State.Issued (s t : State) (e : Event) (calls : List PriCall) (primOp : BitVec 2) (k : BitVec 1)
    (d : Byte) : Prop where
  traced : t.trace = s.trace ++ [e]
  called : t.calls = s.calls ++ calls
  waiting : t.pstep = .wait
  seq_same : t.seq = s.seq
  phase_same : t.phase = s.phase
  idx_same : t.idx = s.idx
  rsp_same : t.rspData = s.rspData
  latches_same : s.SameLatches t
  views_same : s.SameViews t
  flag_cleared : t.periph.fDone = false
  request : t.out.primValid = true ∧ t.out.primOp = primOp ∧ t.out.primAck = k ∧ t.out.primWdata = d
  no_other_pulse : t.out.cmdDone = false ∧ t.out.initReq = false ∧ t.out.rxWe = false

/-- The hold (R120): nothing changes but that the pulses of the step before end. -/
structure State.Held (s t : State) : Prop where
  trace_same : t.trace = s.trace
  calls_same : t.calls = s.calls
  waiting : t.pstep = .wait
  seq_same : t.seq = s.seq
  phase_same : t.phase = s.phase
  idx_same : t.idx = s.idx
  rsp_same : t.rspData = s.rspData
  latches_same : s.SameLatches t
  views_same : s.SameViews t
  periph_same : t.periph = s.periph
  no_pulse : t.out.cmdDone = false ∧ t.out.initReq = false ∧ t.out.primValid = false ∧ t.out.rxWe = false

/-- `seq` and `idx` after the completion of a blocking primitive, as the table of R165 with R166 and the
completion of R121 have them, and `cmd_done`. -/
structure State.Moved (s t : State) : Prop where
  from_start : s.seq = .start → t.seq = (if s.op = 3 then .addrR else .addrW) ∧ t.idx = s.idx
  from_addrW : s.seq = .addrW → t.idx = 0 ∧
    t.seq = (if s.txlen ≠ 0 then .tx else if s.op = 4 then .rstart else .stop)
  from_tx : s.seq = .tx → t.idx = s.idx + 1 ∧
    t.seq = (if s.idx + 1 < s.txlen then .tx else if s.op = 4 then .rstart else .stop)
  from_rstart : s.seq = .rstart → t.seq = .addrR ∧ t.idx = s.idx
  from_addrR : s.seq = .addrR → t.idx = 0 ∧ t.seq = (if s.rxcnt ≠ 0 then .rx else .stop)
  from_rx : s.seq = .rx → t.idx = s.idx + 1 ∧ t.seq = (if s.idx + 1 < s.rxcnt then .rx else .stop)
  from_prim : s.seq = .prim → t.seq = .idle ∧ t.idx = s.idx
  done_pulse : t.out.cmdDone = (s.seq == .prim)

/-- The completion step of a blocking primitive (R120): the event, the new `phase`, the move of the sequencer,
P_ISSUE, and neither a latch nor the transmit view nor the peripheral changes. That reading the data register leaves
the peripheral alone is the model's choice (log 34). -/
structure State.Completed (s t : State) (e : Event) (after : Phase) : Prop where
  traced : t.trace = s.trace ++ [e]
  moved : s.Moved t
  phase_written : t.phase = after
  issuing : t.pstep = .issue
  latches_same : s.SameLatches t
  tx_same : ∀ j, Memory.read t.tx j = Memory.read s.tx j
  capacity_same : t.rxCap = s.rxCap
  periph_same : t.periph = s.periph
  no_request : t.out.primValid = false ∧ t.out.initReq = false

/-- The invariants (a) to (g) of R41, which hold with `HOST_PRIMITIVES` false. -/
structure State.SequencerInvariant (s : State) : Prop where
  idle_phase : s.seq = .idle → s.phase = .idle ∧ s.pstep = .issue
  start_phase : s.seq = .start → s.phase = .idle
  address_phase : s.seq = .addrW ∨ s.seq = .addrR → s.phase = .address
  data_phase : s.seq = .tx ∨ s.seq = .rstart ∨ s.seq = .rx ∨ s.seq = .stop → s.phase = .data
  tx_index : s.seq = .tx → s.idx < s.txlen
  rx_index : s.seq = .rx → s.idx < s.rxcnt
  stop_issues : s.seq = .stop → s.pstep = .issue
  never_prim : s.seq ≠ .prim

/-- The invariants for both builds: (b) to (f) of R41, and in place of (a) and (g) that `SEQ_IDLE` is at P_ISSUE,
that `SEQ_PRIM` runs one of the four primitives in a phase where R111 has it, and that nothing runs before `INIT`
(R205). -/
structure State.Coherent (s : State) : Prop where
  idle_issues : s.seq = .idle → s.pstep = .issue
  start_phase : s.seq = .start → s.phase = .idle
  address_phase : s.seq = .addrW ∨ s.seq = .addrR → s.phase = .address
  data_phase : s.seq = .tx ∨ s.seq = .rstart ∨ s.seq = .rx ∨ s.seq = .stop → s.phase = .data
  tx_index : s.seq = .tx → s.idx < s.txlen
  rx_index : s.seq = .rx → s.idx < s.rxcnt
  stop_issues : s.primitive = some .stop → s.pstep = .issue
  prim_legal : s.seq = .prim → ∃ k p, s.primitive = some k ∧ phaseAfter s.phase k = some p
  initialised : s.seq ≠ .idle ∨ s.phase ≠ .idle → s.inited = true

/-- The primitive of a host form (R121). -/
def hostPrimitiveOf : Instr → Option Prim
  | .start => some .start
  | .stop => some .stop
  | .writeByte _ => some .write
  | .readByte _ => some .read
  | .init => none
  | .writeBurst _ _ => none
  | .readBurst _ _ => none
  | .writeThenRead _ _ _ => none
  | .primStart => none
  | .primStop => none
  | .primWrite _ => none
  | .primRead _ => none

/-- An idle block has this instruction's word on its command port. -/
structure State.Presents (s : State) (i : Instr) : Prop where
  idle : s.seq = .idle
  presented : ∃ w, s.cmdPort = some w ∧ decodeCmd s.params.hostPrimitives w = .legal i

/-- For which reason a step may be refused, and under which condition: the situations the spec gives no meaning, and
no others. No case has the two reasons that no step gives. -/
inductive State.RefusedFor (s : State) : Refusal → Prop where
  /-- An illegal word on the port (R89, U1). -/
  | illegal {w why} (idle : s.seq = .idle) (presented : s.cmdPort = some w)
      (illegal : decodeCmd s.params.hostPrimitives w = .illegal why) : RefusedFor s (.illegalWord why)
  /-- A transaction or host primitive before `INIT` (R205, U3). -/
  | beforeInit {i} (presented : s.Presents i) (other : i ≠ .init) (not_inited : s.inited = false) :
      RefusedFor s .notInitialised
  /-- A transaction or `INIT` in an open frame (R122, U2). -/
  | openFrame {i} (presented : s.Presents i) (whole : i.isHostPrimitive = false) (frame : s.phase ≠ .idle) :
      RefusedFor s .frameOpen
  /-- A host primitive outside the table of R111 (R122, U2). -/
  | hostOutside {i k} (presented : s.Presents i) (kind : hostPrimitiveOf i = some k)
      (outside : phaseAfter s.phase k = none) : RefusedFor s .outsideBusPhaseMachine
  /-- A primitive of the sequencer outside the table of R111, which no coherent state has (R41). -/
  | outside {k} (named : s.primitive = some k) (outside : phaseAfter s.phase k = none) :
      RefusedFor s .outsideBusPhaseMachine
  /-- Hazard 1 in a build that does not allow it (R236, U9, log 15). -/
  | hazard (named : s.primitive = some .start) (issuing : s.pstep = .issue)
      (driven : s.periph.inFlight = some .stopCondition) (build : s.params.stopThenStartOk = false) :
      RefusedFor s .startDuringStop
  /-- A received byte beyond the caller's storage (R72, U6, log 8). -/
  | storage (receiving : s.seq = .rx) (waiting : s.pstep = .wait) (done : s.periph.fDone = true)
      (full : s.rxCap ≤ s.idx.toNat) : RefusedFor s .receiveBeyondStorage
  /-- `SEQ_PRIM` with the opcode of no primitive, which no rule reaches (R121, log 17). -/
  | noPrimitive (busy : s.seq ≠ .idle) (none_named : s.primitive = none) : RefusedFor s .unreachableSequencerState
  /-- Stop at P_WAIT, which no rule reaches (R22, log 17). -/
  | stopWaits (named : s.primitive = some .stop) (waiting : s.pstep = .wait) :
      RefusedFor s .unreachableSequencerState

/-- No blocking bus phase is in flight: nothing is, or a STOP is still being driven (R38 b). -/
def Periph.quietBus (p : Periph) : Prop := p.inFlight = none ∨ p.inFlight = some .stopCondition

/-- The discipline of triggers on which the peripheral may rely (R222): at P_ISSUE no blocking phase is in
flight, inside a frame nothing is, and no START request stands; at P_WAIT the phase in flight is the blocking one
that was triggered, until `F_DONE` says that it is finished. -/
structure State.TriggerDiscipline (s : State) : Prop where
  idle_issues : s.seq = .idle → s.pstep = .issue
  issue_quiet : s.pstep = .issue → s.periph.quietBus
  issue_frame : s.pstep = .issue → s.phase ≠ .idle → s.periph.inFlight = none
  issue_no_start : s.pstep = .issue → s.periph.fStart = false
  issue_no_stop : s.pstep = .issue → s.periph.inFlight = none → s.periph.fStop = false
  wait_done : s.pstep = .wait → s.periph.fDone = true →
    s.periph.inFlight = none ∧ s.periph.fStart = false ∧ s.periph.fStop = false
  wait_busy : s.pstep = .wait → s.periph.fDone = false →
    s.periph.inFlight = some .startCondition ∨
      ((s.periph.inFlight = some .receive ∨ ∃ b, s.periph.inFlight = some (.transmit b)) ∧
        s.periph.fStart = false ∧ s.periph.fStop = false)

/-- A move that can set the completion flag (R219). -/
def EnvMove.endsPhase : EnvMove → Bool
  | .phaseDone _ _ _ => true
  | .stopDriven _ _ => true
  | .present _ => false
  | .withdraw => false
  | .setRst _ => false
  | .passTxView _ => false
  | .passRxView _ => false
  | .storeTx _ _ => false
  | .storeRx _ _ => false
  | .takeRequest => false

/-- A move without what the block has no input for: the slave's acknowledge and the result code (R38 c, d). -/
def EnvMove.blind : EnvMove → EnvMove
  | .phaseDone data _ _ => .phaseDone data 0 false
  | .stopDriven done _ => .stopDriven done 0
  | .present w => .present w
  | .withdraw => .withdraw
  | .setRst level => .setRst level
  | .passTxView bytes => .passTxView bytes
  | .passRxView capacity => .passRxView capacity
  | .storeTx i b => .storeTx i b
  | .storeRx i b => .storeRx i b
  | .takeRequest => .takeRequest

/-- A state without the slave's acknowledge and the result code, now and in every move to come (R38 c, d). -/
def State.blind (s : State) : State :=
  { s with
    periph := { s.periph with regStatus := 0, slaveAck := false }
    env := s.env.map (fun slot => slot.map EnvMove.blind) }

/-- A result without the slave's acknowledge and the result code. -/
def blindResult : Result → Result
  | .next t => .next t.blind
  | .fault f => .fault f
  | .refused e => .refused e

/-- How a live peripheral answers one blocking primitive (R221): after `waits` more steps, with this content of
the data register, this result code and this acknowledge of the slave. -/
structure PrimAnswer where
  waits : Nat
  data : Byte
  status : Nat
  slaveAck : Bool
  deriving DecidableEq, Repr

/-- The slots of `env` of one blocking primitive: the issue step and `waits` holds, with `F_DONE` set after the
last of them, then the completion step. -/
def PrimAnswer.slots (a : PrimAnswer) : List (List EnvMove) :=
  List.replicate a.waits [] ++ [[.phaseDone a.data a.status a.slaveAck], []]

/-- The slots of one transaction: its acceptance step, its blocking primitives, its Stop. The host does nothing
meanwhile (R238) and no reset comes. -/
def transactionSlots (answers : List PrimAnswer) : List (List EnvMove) :=
  [[]] ++ answers.flatMap PrimAnswer.slots ++ [[]]

/-- The events of one WriteByte (R114). -/
def writeByteEvents (b : Byte) : List Event := [.reqWrite b, .done]

/-- The events of a Start and the address byte (R162, R163). -/
def addressEvents (a : SlaveAddr) (d : BitVec 1) : List Event := [.reqStart, .done, .reqWrite (a ++ d), .done]

/-- The events of a read phase that receives these bytes: ACK for each but the last, NACK for the last (R146). -/
def readPhaseEvents : List Byte → List Event
  | [] => []
  | [b] => [.reqRead .nack, .doneRead b]
  | b :: bs => [.reqRead .ack, .doneRead b] ++ readPhaseEvents bs

/-- The receive view `rx'` is `rx` with these bytes at indices 0, 1, … and nothing else changed (R62). -/
def receivedInto (rx rx' : Memory) (bytes : List Byte) : Prop :=
  ∀ j, Memory.read rx' j = if h : j < bytes.length then some bytes[j] else Memory.read rx j

/-- The state can accept a transaction whose word is `w` (R161), and the first Start is not requested against
hazard 1 (R236). -/
structure State.ReadyFor (s : State) (w : Encoded) : Prop where
  not_reset : s.rst = false
  idle : s.seq = .idle
  bus_idle : s.phase = .idle
  initialised : s.inited = true
  presented : ∃ c, w = .cmd c ∧ s.cmdPort = some c
  no_hazard : s.periph.inFlight ≠ some .stopCondition ∨ s.params.stopThenStartOk = true

/-- What a finished transaction leaves beside its trace and its received bytes (R167): the block is idle with
`cmd_done` raised, the latches hold the command, the transmit view is as it was. That the word has left the port is
the model's choice (log 2). -/
structure State.Finished (s t : State) (op : Opcode) (a : SlaveAddr) (txl rxc : Count) : Prop where
  idle : t.seq = .idle
  issue : t.pstep = .issue
  bus_idle : t.phase = .idle
  cmd_done : t.out.cmdDone = true
  ready : t.cmdReady = true
  op_latch : t.op = op
  addr_latch : t.addr = a
  txlen_latch : t.txlen = txl
  rxcnt_latch : t.rxcnt = rxc
  inited_same : t.inited = s.inited
  rsp_same : t.rspData = s.rspData
  params_same : t.params = s.params
  tx_same : t.tx = s.tx
  port_taken : t.cmdPort = none

end Sys2Proof.Machine
end

