-- ==== Sys2Proof/Certificates/Slice0/Obligations.lean ====
section
/-! DEFINITION. The statements for the provers. Each docstring names the rule of spec/ it formalises or the entry
of the assumption log it rests on. -/

open Sys2Proof Sys2Proof.Machine

/-! ### Reset and the fetch -/

/-- R231. After reset the block is idle and ready and no output is raised; and an idle block with no command
presented does nothing but end its pulses. That it then takes such a step (log 24), and that the moves of the other
agents follow (log 1), are the model's choices. -/
def Obligations.ResetIsIdleAndReady : Prop :=
  State.reset.seq = .idle ∧ State.reset.phase = .idle ∧ State.reset.pstep = .issue ∧
  State.reset.inited = false ∧ State.reset.cmdReady = true ∧ State.reset.busy = false ∧
  State.reset.out.cmdDone = false ∧ State.reset.out.primValid = false ∧
  State.reset.out.rxWe = false ∧ State.reset.out.initReq = false ∧
  ∀ s : State, s.rst = false → s.seq = .idle → s.cmdPort = none →
    step s = .next ({ s with out := Outputs.quiet } : State).envStep

/-- R230, R214 (a). With `rst` = 1 the step is the reset step, whatever was in progress: no command accepted, no
event, no register-interface call, no buffer access, and outside a frame the peripheral is untouched (inside one it
is unconstrained, R232). -/
def Obligations.ResetStepDoesNothingElse : Prop :=
  ∀ s : State, s.rst = true →
    ∃ t, step s = .next t.envStep ∧ (∀ i, exec i s = .next t) ∧
      t.seq = .idle ∧ t.pstep = .issue ∧ t.phase = .idle ∧ t.inited = false ∧
      t.out.cmdDone = false ∧ t.out.initReq = false ∧ t.out.primValid = false ∧ t.out.primOp = 0 ∧
      t.out.primAck = 0 ∧ t.out.primWdata = 0 ∧ t.out.rxWe = false ∧ t.out.rxIdx = 0 ∧ t.out.rxData = 0 ∧
      t.txIdx = 0 ∧ t.busy = false ∧ t.cmdReady = false ∧
      t.cmdPort = s.cmdPort ∧ t.trace = s.trace ∧ t.calls = s.calls ∧ s.SameViews t ∧ t.params = s.params ∧
      (s.seq = .idle → s.phase = .idle → t.periph = s.periph)

/-- A step of an idle block with a legal word on the command port is the meaning of the decoded instruction,
followed by the moves of the host and the peripheral (log 1). -/
def Obligations.StepRunsPresentedCommand : Prop :=
  ∀ (s : State) (w : CmdWord) (i : Instr),
    s.rst = false → s.seq = .idle → s.cmdPort = some w →
    decode s.params.hostPrimitives (.cmd w) = .legal i → step s = thenEnvironment (exec i s)

/-- A step of a busy block at P_ISSUE is the meaning of the instruction its request word decodes to; at P_WAIT it
is the rest of the meaning of any primitive of the kind in flight (log 17). -/
def Obligations.StepRunsRequestedPrimitive : Prop :=
  (∀ (s : State) (w : PrimWord), s.rst = false → s.seq ≠ .idle → s.pstep = .issue → s.requestWord = some w →
    step s = thenEnvironment (exec (decodePrim w) s)) ∧
  (∀ s : State, s.rst = false → s.pstep = .wait → s.primitive = some .start →
    step s = thenEnvironment (exec .primStart s)) ∧
  (∀ (s : State) (d : Byte), s.rst = false → s.pstep = .wait → s.primitive = some .write →
    step s = thenEnvironment (exec (.primWrite d) s)) ∧
  (∀ (s : State) (k : Ack), s.rst = false → s.pstep = .wait → s.primitive = some .read →
    step s = thenEnvironment (exec (.primRead k) s))

/-- R89. An illegal word is refused, and illegal is exactly: no row of R83 selects the word (a reserved opcode, or
a must-be-zero bit that is 1), or the row is a host primitive's and HOST_PRIMITIVES is false. The names of the reasons
are the model's (log 29). -/
def Obligations.IllegalWordIsRefused : Prop :=
  (∀ (hp : Bool) (w : CmdWord),
    (∃ why, decodeCmd hp w = .illegal why) ↔
      (∀ r : CmdRow, r.selects w = false) ∨ (∃ r : CmdRow, r.selects w = true ∧ r.isHostPrimitive = true ∧ hp = false)) ∧
  (∀ (hp : Bool) (w : CmdWord), fieldOpc w ∈ [0x0, 0x5, 0x6, 0x7, 0xC, 0xD, 0xE, 0xF] →
    decodeCmd hp w = .illegal (.reservedOpcode (fieldOpc w))) ∧
  (∀ (hp : Bool) (w : CmdWord) (r : CmdRow), fieldOpc w = r.opcode → w &&& r.mask ≠ r.pattern →
    decodeCmd hp w = .illegal (.mustBeZeroBitSet r)) ∧
  (∀ (s : State) (w : CmdWord) (why : IllegalWord),
    s.rst = false → s.seq = .idle → s.cmdPort = some w → decodeCmd s.params.hostPrimitives w = .illegal why →
    step s = .refused (.illegalWord why))

/-- R161, R214 (b), (c). While the block is busy a presented command is not accepted. The command's meaning changes
nothing (log 16); and a step of the machine leaves the port and the latches as they are, up to the moves of the next
slot of `env` (log 1), so with no move to come the same word stands at the port. -/
def Obligations.CommandWaitsWhileBusy : Prop :=
  ∀ s : State, s.rst = false → s.seq ≠ .idle →
    (∀ i : Instr, i.isCommand = true → exec i s = .next s) ∧
    (∀ t, step s = .next t →
      (∃ u : State, t = u.envStep ∧ u.env = s.env ∧ u.cmdPort = s.cmdPort ∧ s.SameLatches u) ∧
      (s.env = [] → t.cmdPort = s.cmdPort))

/-! ### Encodings -/

/-- Words written out from R83 and R84 decode to the commands they stand for (95_test_vectors.md section 2). -/
def Obligations.SampleWordsDecode : Prop :=
  decode false (.cmd 0x10000000) = .legal .init ∧
  decode false (.cmd 0x23C00200) = .legal (.writeBurst 0x3C 2) ∧
  decode false (.cmd 0x36800003) = .legal (.readBurst 0x68 3) ∧
  decode false (.cmd 0x45000102) = .legal (.writeThenRead 0x50 1 2) ∧
  decode true (.cmd 0x80000000) = .legal .start ∧
  decode true (.cmd 0x90000000) = .legal .stop ∧
  decode true (.cmd 0xA00000A0) = .legal (.writeByte 0xA0) ∧
  decode true (.cmd 0xB0000001) = .legal (.readByte .ack) ∧
  decode false (.prim 0b00000000000) = .legal .primStart ∧
  decode false (.prim 0b01000000000) = .legal .primStop ∧
  decode false (.prim 0b10010100000) = .legal (.primWrite 0xA0) ∧
  decode false (.prim 0b11100000000) = .legal (.primRead .ack)

/-- Every instruction a build admits is what its own word decodes to, with every operand at every value. -/
def Obligations.DecodeOfEncodeIsTheInstruction : Prop :=
  ∀ (hp : Bool) (i : Instr), i.wellFormed hp = true → decode hp (encode i) = .legal i

/-- A legal command word is the word of the instruction it decodes to, so each instruction has one word (R83,
R94); and the words the sequencer drives have their unused fields 0 (R84). -/
def Obligations.LegalWordIsTheEncoding : Prop :=
  (∀ (hp : Bool) (w : CmdWord) (i : Instr),
    decodeCmd hp w = .legal i → encode i = .cmd w ∧ i.wellFormed hp = true) ∧
  (∀ (s : State) (w : PrimWord), s.requestWord = some w → encode (decodePrim w) = .prim w)

/-- R83. The rows are pairwise disjoint: no word selects two. -/
def Obligations.RowsArePairwiseDisjoint : Prop :=
  ∀ (w : CmdWord) (r r' : CmdRow), r.selects w = true → r'.selects w = true → r = r'

/-! ### The two functions and the phase table -/

/-- R140, R141, R85. The address byte is the address followed by the direction bit, `(a<<1)|d`. -/
def Obligations.AddressByteIsAddressThenDirection : Prop :=
  ∀ (a : SlaveAddr) (d : Dir),
    frame a d = a ++ d.toBit ∧
    (frame a d).toNat = 2 * a.toNat + d.toBit.toNat ∧
    (frame a d).extractLsb' 1 7 = a ∧
    (frame a d).getLsbD 0 = (d == .read) ∧
    frame a d = (a.setWidth 8 <<< 1) ||| d.toBit.setWidth 8 ∧
    frame a .read = frame a .write + 1

/-- R142, R143, R145. The three forms of the AckDecision agree, and a one-byte read is NACKed at once. -/
def Obligations.AckDecisionIsNackForTheLastByte : Prop :=
  (∀ i c : Count, i < c →
    (ackDecision i c = .nack ↔ i = c - 1) ∧
    (ackDecision i c = .nack ↔ i.toNat + 1 = c.toNat) ∧
    (ackDecision i c = .nack ↔ c - i = 1)) ∧
  ackDecision 0 1 = .nack

/-- R146. The acknowledge sequence of a read phase of `c` ≥ 1 bytes is ACK repeated `c - 1` times, then one NACK. -/
def Obligations.AckSequenceEndsInOneNack : Prop :=
  ∀ c : Count, c ≠ 0 →
    (List.range c.toNat).map (fun i => ackDecision (BitVec.ofNat 8 i) c) =
      List.replicate (c.toNat - 1) Ack.ack ++ [Ack.nack]

/-- R111. The six pairs of the table and no others; and each of the four primitives, issued in a phase whose pair
is not in it, is refused (R122). -/
def Obligations.PrimitiveOutsideTheTableIsRefused : Prop :=
  (∀ p k q, phaseAfter p k = some q ↔
    (p, k, q) ∈ [(Phase.idle, Prim.start, Phase.address), (.address, .write, .data), (.data, .write, .data),
      (.data, .read, .data), (.data, .start, .address), (.data, .stop, .idle)]) ∧
  (∀ s : State, s.rst = false → s.pstep = .issue →
    (s.primitive = some .start → s.phase = .address → exec .primStart s = .refused .outsideBusPhaseMachine) ∧
    (s.primitive = some .stop → s.phase ≠ .data → exec .primStop s = .refused .outsideBusPhaseMachine) ∧
    (∀ d, s.primitive = some .write → s.phase = .idle → exec (.primWrite d) s = .refused .outsideBusPhaseMachine) ∧
    (∀ k, s.primitive = some .read → s.phase ≠ .data → exec (.primRead k) s = .refused .outsideBusPhaseMachine))

/-! ### Commands -/

/-- R201. INIT completes in one step: it sets `inited`, forwards `init_req`, raises `cmd_done`, makes no bus event,
and the collaborator sets the prescale configuration, the rate divisor and the enable. That it does so in the same
step (log 10), and that the prescale configuration lies in no other register (log 35), are the model's choices. -/
def Obligations.InitCompletesInOneStep : Prop :=
  ∀ s : State, s.rst = false → s.seq = .idle → s.phase = .idle →
    ∃ t, exec .init s = .next t ∧ t.inited = true ∧ t.out.initReq = true ∧ t.out.cmdDone = true ∧
      t.out.primValid = false ∧ t.out.rxWe = false ∧ t.seq = .idle ∧ t.trace = s.trace ∧ t.phase = s.phase ∧
      t.op = s.op ∧ t.addr = s.addr ∧ t.txlen = s.txlen ∧ t.rxcnt = s.rxcnt ∧ t.idx = s.idx ∧
      t.periph = { s.periph with prescale := Config.prescaleCfg, regRate := Config.rateDiv, fEn := true } ∧
      t.calls = s.calls ++ [.setRateDivisor Config.rateDiv, .setControlBit .fEn]

/-- R202. INIT with `inited` = 1 leaves every register of the block as it was and forwards `init_req` again; and two
INITs leave the peripheral as one does, by the same calls. That the collaborator acts in the same step is the model's
choice (log 10). -/
def Obligations.InitIsIdempotent : Prop :=
  ∀ s : State, s.rst = false → s.seq = .idle → s.phase = .idle →
    (s.inited = true → ∃ t, exec .init s = .next t ∧ t.out.initReq = true ∧
      t.seq = s.seq ∧ t.pstep = s.pstep ∧ t.phase = s.phase ∧ t.op = s.op ∧ t.addr = s.addr ∧ t.txlen = s.txlen ∧
      t.rxcnt = s.rxcnt ∧ t.idx = s.idx ∧ t.rspData = s.rspData ∧ t.inited = s.inited) ∧
    (∀ t, exec .init s = .next t → ∃ u calls, exec .init t = .next u ∧ u.out.initReq = true ∧
      u.periph = t.periph ∧ t.calls = s.calls ++ calls ∧ u.calls = t.calls ++ calls)

/-- R161. WRITE_BURST, READ_BURST and WRITE_THEN_READ are accepted in an idle, initialised block with no frame
open: their fields are latched (unused ones as 0) and the sequencer starts. A busy block does not accept them. -/
def Obligations.TransactionIsAccepted : Prop :=
  ∀ (s : State) (a : SlaveAddr) (n r : Count), s.rst = false →
    (s.seq = .idle → s.phase = .idle → s.inited = true →
      (∃ t, exec (.writeBurst a n) s = .next t ∧ s.AcceptedTransaction t 2 a n 0 ∧ s.SameSurroundings t) ∧
      (∃ t, exec (.readBurst a r) s = .next t ∧ s.AcceptedTransaction t 3 a 0 r ∧ s.SameSurroundings t) ∧
      (∃ t, exec (.writeThenRead a n r) s = .next t ∧ s.AcceptedTransaction t 4 a n r ∧ s.SameSurroundings t)) ∧
    (s.seq ≠ .idle →
      exec (.writeBurst a n) s = .next s ∧ exec (.readBurst a r) s = .next s ∧
      exec (.writeThenRead a n r) s = .next s)

/-- START, STOP, WRITE_BYTE and READ_BYTE are accepted in an idle, initialised block with HOST_PRIMITIVES true
where the bus-phase machine has the primitive (acceptance of R121): opcode and operand are latched and SEQ_PRIM
starts. -/
def Obligations.HostPrimitiveIsAccepted : Prop :=
  ∀ s : State, s.rst = false → s.seq = .idle → s.inited = true → s.params.hostPrimitives = true →
    (s.phase = .idle ∨ s.phase = .data →
      ∃ t, exec .start s = .next t ∧ s.AcceptedHostPrimitive t 8 0 ∧ s.SameSurroundings t) ∧
    (s.phase = .data → ∃ t, exec .stop s = .next t ∧ s.AcceptedHostPrimitive t 9 0 ∧ s.SameSurroundings t) ∧
    (s.phase = .address ∨ s.phase = .data →
      ∀ d, ∃ t, exec (.writeByte d) s = .next t ∧ s.AcceptedHostPrimitive t 10 d ∧ s.SameSurroundings t) ∧
    (s.phase = .data →
      (∃ t, exec (.readByte .ack) s = .next t ∧ s.AcceptedHostPrimitive t 11 1 ∧ s.SameSurroundings t) ∧
      (∃ t, exec (.readByte .nack) s = .next t ∧ s.AcceptedHostPrimitive t 11 0 ∧ s.SameSurroundings t))

/-- R205. A transaction command or a host-issued primitive while `inited` = 0 is refused. That this is the reason given
where R122 applies too is the model's choice (log 31). -/
def Obligations.CommandBeforeInitIsRefused : Prop :=
  ∀ (s : State) (i : Instr), s.rst = false → s.seq = .idle → s.inited = false →
    i.isCommand = true → i ≠ .init → i.wellFormed s.params.hostPrimitives = true →
    exec i s = .refused .notInitialised

/-- R122. A host-issued primitive outside the table of R111, and a transaction command or INIT while `phase` is not
Idle, are refused. -/
def Obligations.CommandInOpenFrameIsRefused : Prop :=
  ∀ s : State, s.rst = false → s.seq = .idle →
    (s.phase ≠ .idle → exec .init s = .refused .frameOpen) ∧
    (s.phase ≠ .idle → s.inited = true →
      (∀ a n, exec (.writeBurst a n) s = .refused .frameOpen) ∧
      (∀ a c, exec (.readBurst a c) s = .refused .frameOpen) ∧
      (∀ a m r, exec (.writeThenRead a m r) s = .refused .frameOpen)) ∧
    (s.inited = true → s.params.hostPrimitives = true →
      (s.phase = .address → exec .start s = .refused .outsideBusPhaseMachine) ∧
      (s.phase ≠ .data → exec .stop s = .refused .outsideBusPhaseMachine) ∧
      (s.phase = .idle → ∀ d, exec (.writeByte d) s = .refused .outsideBusPhaseMachine) ∧
      (s.phase ≠ .data → ∀ k, exec (.readByte k) s = .refused .outsideBusPhaseMachine))

/-- What a command leaves unchanged when it gives a next state: of the block only the fields named change, no
event and no bus phase arises, and every byte of both views reads as before. For a host primitive `addr` and
`txlen` are unchanged by the model's choice (log 18), and that the command leaves the port is log 2. That INIT leaves
REG_STATUS as it was although it writes the prescale configuration is log 35. -/
def Obligations.CommandFrame : Prop :=
  ∀ (s t : State) (i : Instr), s.rst = false → i.isCommand = true → exec i s = .next t →
    t.trace = s.trace ∧ t.phase = s.phase ∧ t.idx = s.idx ∧ t.rspData = s.rspData ∧ s.SameViews t ∧
    s.SameSurroundings t ∧
    (i ≠ .init → t.inited = s.inited ∧ t.periph = s.periph ∧ t.calls = s.calls) ∧
    (i = .init → t.seq = s.seq ∧ t.pstep = s.pstep ∧ t.op = s.op ∧ t.addr = s.addr ∧ t.txlen = s.txlen ∧
      t.rxcnt = s.rxcnt ∧ t.periph.fStart = s.periph.fStart ∧ t.periph.fStop = s.periph.fStop ∧
      t.periph.fAck = s.periph.fAck ∧ t.periph.fGo = s.periph.fGo ∧ t.periph.fDone = s.periph.fDone ∧
      t.periph.regData = s.periph.regData ∧ t.periph.regStatus = s.periph.regStatus ∧
      t.periph.inFlight = s.periph.inFlight ∧ t.periph.tracking = s.periph.tracking) ∧
    (i.isHostPrimitive = true → t.addr = s.addr ∧ t.txlen = s.txlen)

/-! ### Primitives -/

/-- R112, R123. PRIM_START, whole: issue step (legal in Idle and in DataPhase), hold, completion step. The last
premise of the issue step is that hazard 1 does not arise (R236); that the START then replaces a STOP still being
driven is the model's reading (log 13, log 15). When the wait is recorded is log 20, the hold as a step log 24. -/
def Obligations.PrimStartFollowsItsRule : Prop :=
  ∀ s : State, s.rst = false → s.primitive = some .start →
    (s.pstep = .issue → s.phase = .idle ∨ s.phase = .data →
      s.periph.inFlight ≠ some .stopCondition ∨ s.params.stopThenStartOk = true →
      ∃ t, exec .primStart s = .next t ∧
        s.Issued t .reqStart [.setControlBit .fStart, .setControlBit .fGo] 0 0 0 ∧
        t.periph = { s.periph with fStart := true, fGo := false, fDone := false, inFlight := some .startCondition }) ∧
    (s.pstep = .wait → s.periph.fDone = false → ∃ t, exec .primStart s = .next t ∧ s.Held t) ∧
    (s.pstep = .wait → s.periph.fDone = true → s.phase = .idle ∨ s.phase = .data →
      ∃ t, exec .primStart s = .next t ∧ s.Completed t .done .address ∧ t.rspData = s.rspData ∧ s.SameViews t ∧
        t.calls = s.calls ++ [.waitUntilAsserted .ctrl .fDone])

/-- R113. PRIM_STOP, whole: its words; one step from DataPhase, no hold, no `Done`; the command ends. That `F_DONE` is
then 0, as the trigger left it, is the model's reading (log 26). -/
def Obligations.PrimStopFollowsItsRule : Prop :=
  encode .primStop = .prim 0b01000000000 ∧ encode .stop = .cmd 0x90000000 ∧
  ∀ s : State, s.rst = false → s.primitive = some .stop → s.pstep = .issue → s.phase = .data →
    ∃ t, exec .primStop s = .next t ∧ t.trace = s.trace ++ [.reqStop] ∧
      t.calls = s.calls ++ [.setControlBit .fStop, .setControlBit .fGo] ∧
      t.phase = .idle ∧ t.seq = .idle ∧ t.pstep = .issue ∧ t.out.cmdDone = true ∧
      t.out.primValid = true ∧ t.out.primOp = 1 ∧ t.out.primAck = 0 ∧ t.out.primWdata = 0 ∧
      t.cmdReady = true ∧ t.periph.fStop = true ∧ t.periph.fDone = false ∧
      (s.periph.fStart = false → t.periph.inFlight = some .stopCondition) ∧
      s.SameLatches t ∧ s.SameViews t ∧ t.idx = s.idx ∧ t.rspData = s.rspData

/-- R114. PRIM_WRITE, whole: the data register is written, then the trigger; hold; completion, in AddressPhase and
in DataPhase, for every byte. That a byte with no frame open is transmitted is the model's choice (log 13); when the
wait is recorded is log 20, the hold as a step log 24. -/
def Obligations.PrimWriteFollowsItsRule : Prop :=
  ∀ (s : State) (d : Byte), s.rst = false → s.primitive = some .write →
    (s.pstep = .issue → s.phase = .address ∨ s.phase = .data →
      ∃ t, exec (.primWrite d) s = .next t ∧
        s.Issued t (.reqWrite d) [.writeDataRegister d, .setControlBit .fGo] 2 0 d ∧
        t.periph.regData = d ∧ t.periph.fGo = false ∧
        (s.periph.fStart = false → s.periph.fStop = false → s.periph.tracking ≠ .receiving →
          t.periph.inFlight = some (.transmit d))) ∧
    (s.pstep = .wait → s.periph.fDone = false → ∃ t, exec (.primWrite d) s = .next t ∧ s.Held t) ∧
    (s.pstep = .wait → s.periph.fDone = true → s.phase = .address ∨ s.phase = .data →
      ∃ t, exec (.primWrite d) s = .next t ∧ s.Completed t .done .data ∧ t.rspData = s.rspData ∧ s.SameViews t ∧
        t.calls = s.calls ++ [.waitUntilAsserted .ctrl .fDone])

/-- R115, R62. PRIM_READ, whole: the acknowledge is configured, then the trigger; hold; completion with the data
register's byte, stored in the receive view (SEQ_RX) or in `rsp_data` (SEQ_PRIM). The last premise is the caller's
duty of R72. That the read of the data register leaves the peripheral as it was is the model's choice (log 34); when
the wait is recorded is log 20, the hold as a step log 24. -/
def Obligations.PrimReadFollowsItsRule : Prop :=
  ∀ (s : State) (k : Ack), s.rst = false → s.primitive = some .read → s.phase = .data →
    (s.pstep = .issue →
      ∃ t, exec (.primRead k) s = .next t ∧
        s.Issued t (.reqRead k)
          [if k = .ack then .setControlBit .fAck else .clearControlBit .fAck, .setControlBit .fGo] 3 k.toBit 0 ∧
        t.periph.fAck = (k == .ack) ∧ t.periph.fGo = false ∧ t.periph.regData = s.periph.regData ∧
        (s.periph.fStart = false → s.periph.fStop = false → s.periph.tracking = .receiving →
          t.periph.inFlight = some .receive)) ∧
    (s.pstep = .wait → s.periph.fDone = false → ∃ t, exec (.primRead k) s = .next t ∧ s.Held t) ∧
    (s.pstep = .wait → s.periph.fDone = true → s.seq = .prim ∨ s.idx.toNat < s.rxCap →
      ∃ t, exec (.primRead k) s = .next t ∧ s.Completed t (.doneRead s.periph.regData) .data ∧
        t.calls = s.calls ++ [.waitUntilAsserted .ctrl .fDone, .readDataRegister s.periph.regData] ∧
        (s.seq = .rx → Memory.read t.rx s.idx.toNat = some s.periph.regData ∧
          (∀ j, j ≠ s.idx.toNat → Memory.read t.rx j = Memory.read s.rx j) ∧
          t.out.rxWe = true ∧ t.out.rxIdx = s.idx ∧ t.out.rxData = s.periph.regData ∧ t.rspData = s.rspData) ∧
        (s.seq = .prim → t.rspData = s.periph.regData ∧ t.out.rxWe = false ∧
          ∀ j, Memory.read t.rx j = Memory.read s.rx j))

/-- What PRIM_START and PRIM_STOP leave unchanged when they give a next state. -/
def Obligations.StartStopFrame : Prop :=
  ∀ (s t : State), s.rst = false →
    (exec .primStart s = .next t ∨ exec .primStop s = .next t) →
    s.SameLatches t ∧ s.SameViews t ∧ s.SameSurroundings t ∧ t.cmdPort = s.cmdPort ∧ t.rspData = s.rspData ∧
    t.idx = s.idx ∧ t.periph.fAck = s.periph.fAck ∧ t.periph.fEn = s.periph.fEn ∧
    t.periph.regData = s.periph.regData ∧ t.periph.regStatus = s.periph.regStatus ∧
    t.periph.regRate = s.periph.regRate ∧ t.periph.prescale = s.periph.prescale ∧
    t.periph.slaveAck = s.periph.slaveAck ∧ t.periph.tracking = s.periph.tracking ∧
    (exec .primStart s = .next t → t.periph.fStop = s.periph.fStop) ∧
    (exec .primStop s = .next t → t.periph.fStart = s.periph.fStart)

/-- What PRIM_WRITE leaves unchanged when it gives a next state: `idx` moves only at the completion of a byte of a
transaction, and every byte of both views reads as before. -/
def Obligations.WriteFrame : Prop :=
  ∀ (s t : State) (d : Byte), s.rst = false → exec (.primWrite d) s = .next t →
    s.SameLatches t ∧ s.SameViews t ∧ s.SameSurroundings t ∧ t.cmdPort = s.cmdPort ∧ t.rspData = s.rspData ∧
    (s.pstep = .issue ∨ s.periph.fDone = false ∨ s.seq = .prim → t.idx = s.idx) ∧
    (s.pstep = .wait → t.periph = s.periph) ∧
    t.periph.fAck = s.periph.fAck ∧ t.periph.fEn = s.periph.fEn ∧ t.periph.fStart = s.periph.fStart ∧
    t.periph.fStop = s.periph.fStop ∧ t.periph.regStatus = s.periph.regStatus ∧
    t.periph.regRate = s.periph.regRate ∧ t.periph.prescale = s.periph.prescale ∧
    t.periph.slaveAck = s.periph.slaveAck ∧ t.periph.tracking = s.periph.tracking

/-- What PRIM_READ leaves unchanged when it gives a next state. It stores only at its completion in SEQ_RX, at
index `idx`; every other byte, and in every other case every byte, reads as before. That its completion leaves the
peripheral as it was is the model's choice (log 34). -/
def Obligations.ReadFrame : Prop :=
  ∀ (s t : State) (k : Ack), s.rst = false → exec (.primRead k) s = .next t →
    s.SameLatches t ∧ s.SameSurroundings t ∧ t.cmdPort = s.cmdPort ∧ t.rxCap = s.rxCap ∧
    (∀ j, Memory.read t.tx j = Memory.read s.tx j) ∧
    (∀ j, j ≠ s.idx.toNat → Memory.read t.rx j = Memory.read s.rx j) ∧
    (s.pstep = .issue ∨ s.periph.fDone = false ∨ s.seq = .prim → t.idx = s.idx ∧
      ∀ j, Memory.read t.rx j = Memory.read s.rx j) ∧
    (s.pstep = .issue ∨ s.periph.fDone = false ∨ s.seq ≠ .prim → t.rspData = s.rspData) ∧
    (s.pstep = .wait → t.periph = s.periph) ∧
    t.periph.fEn = s.periph.fEn ∧ t.periph.fStart = s.periph.fStart ∧ t.periph.fStop = s.periph.fStop ∧
    t.periph.regData = s.periph.regData ∧ t.periph.regStatus = s.periph.regStatus ∧
    t.periph.regRate = s.periph.regRate ∧ t.periph.prescale = s.periph.prescale ∧
    t.periph.slaveAck = s.periph.slaveAck ∧ t.periph.tracking = s.periph.tracking

/-- R236 as U9 reads it. The first START of a frame, requested while the previous STOP is still being driven, is
refused in a build where STOP_THEN_START_OK is false (log 15). -/
def Obligations.StartDuringStopIsRefused : Prop :=
  ∀ s : State, s.rst = false → s.primitive = some .start → s.pstep = .issue → s.phase = .idle ∨ s.phase = .data →
    s.periph.inFlight = some .stopCondition → s.params.stopThenStartOk = false →
    exec .primStart s = .refused .startDuringStop

/-- U6. A received byte at an index beyond the caller's storage is refused, in the completion of PRIM_READ
(log 8). -/
def Obligations.ReceiveBeyondStorageIsRefused : Prop :=
  ∀ (s : State) (k : Ack), s.rst = false → s.seq = .rx → s.pstep = .wait → s.phase = .data →
    s.periph.fDone = true → s.rxCap ≤ s.idx.toNat → exec (.primRead k) s = .refused .receiveBeyondStorage

/-! ### The sequencer -/

/-- R165, R61, second column: the instruction that the request word of each state decodes to, with its operand. -/
def Obligations.SequencerRequestsTheTabledPrimitive : Prop :=
  ∀ s : State,
    (s.seq = .idle → s.requestWord = none) ∧
    (s.seq = .start ∨ s.seq = .rstart → s.requestWord.map decodePrim = some .primStart) ∧
    (s.seq = .addrW → s.requestWord.map decodePrim = some (.primWrite (s.addr ++ (0 : BitVec 1)))) ∧
    (s.seq = .tx → (∀ b, Memory.read s.tx s.idx.toNat = some b →
      s.requestWord.map decodePrim = some (.primWrite b)) ∧
      ∃ b, s.requestWord.map decodePrim = some (.primWrite b)) ∧
    (s.seq = .addrR → s.requestWord.map decodePrim = some (.primWrite (s.addr ++ (1 : BitVec 1)))) ∧
    (s.seq = .rx → s.requestWord.map decodePrim =
      some (.primRead (if s.idx = s.rxcnt - 1 then .nack else .ack))) ∧
    (s.seq = .stop → s.requestWord.map decodePrim = some .primStop) ∧
    (s.seq = .prim →
      (s.op = 8 → s.requestWord.map decodePrim = some .primStart) ∧
      (s.op = 9 → s.requestWord.map decodePrim = some .primStop) ∧
      (s.op = 10 → s.requestWord.map decodePrim = some (.primWrite s.rxcnt)) ∧
      (s.op = 11 → s.requestWord.map decodePrim = some (.primRead (if s.rxcnt.getLsbD 0 then .ack else .nack))))

/-- R165, R166, third and fourth columns: a step at P_WAIT with `F_DONE` set moves `seq` and `idx` as the table
says, whatever the host and the peripheral do next. The last premise is the caller's duty of R72. -/
def Obligations.SequencerMovesAsTabled : Prop :=
  ∀ s : State, s.rst = false → s.Coherent → s.pstep = .wait → s.periph.fDone = true →
    (s.seq = .rx → s.idx.toNat < s.rxCap) →
    ∃ t, step s = .next t.envStep ∧ s.Moved t ∧ t.pstep = .issue ∧ some t.phase = s.primitive.bind (phaseAfter s.phase)

/-! ### Invariants -/

/-- R41. The invariants (a) to (g) are kept by every step of a build with HOST_PRIMITIVES false. -/
def Obligations.SequencerInvariantIsKept : Prop :=
  ∀ s t : State, s.params.hostPrimitives = false → s.SequencerInvariant → step s = .next t →
    t.SequencerInvariant ∧ t.params.hostPrimitives = false

/-- The invariants of either build are kept by every step. -/
def Obligations.CoherenceIsKept : Prop :=
  ∀ s t : State, s.Coherent → step s = .next t → t.Coherent

/-- The discipline of triggers of R222 is kept by every step that does not reset the block in the middle of a
frame (after which R232 leaves the peripheral open). -/
def Obligations.TriggerDisciplineIsKept : Prop :=
  ∀ s t : State, (s.rst = true → s.seq = .idle ∧ s.phase = .idle) →
    s.TriggerDiscipline → step s = .next t → t.TriggerDiscipline

/-- The three invariants hold after reset. -/
def Obligations.ResetMeetsTheInvariants : Prop :=
  State.reset.SequencerInvariant ∧ State.reset.Coherent ∧ State.reset.TriggerDiscipline ∧
  State.reset.params.hostPrimitives = false ∧ Memory.wf State.reset.tx ∧ Memory.wf State.reset.rx

/-- The canonical form of both views is kept by every step. -/
def Obligations.ViewsStayCanonical : Prop :=
  ∀ s t : State, Memory.wf s.tx → Memory.wf s.rx → step s = .next t → Memory.wf t.tx ∧ Memory.wf t.rx

/-- In a coherent state a busy block always has a next step: no refusal can end a transaction but hazard 1 (R236)
and a receive storage that is too small (R72). That the hold is a step is the model's choice (log 24). -/
def Obligations.BusyBlockAlwaysSteps : Prop :=
  ∀ s : State, s.Coherent → s.rst = false → s.seq ≠ .idle →
    (s.seq = .rx → s.idx.toNat < s.rxCap) →
    (s.periph.inFlight ≠ some .stopCondition ∨ s.params.stopThenStartOk = true) →
    ∃ t, step s = .next t

/-- R210. There is no fault to raise; and a step is refused only out of reset and only for a reason, under its
condition, to which the spec gives no meaning (R89, R205, R122, R236, R72), or in a state no rule reaches (R22, R121,
R41). In particular no step is refused for want of a meaning. The readings of hazard 1, of the storage and of the
unreachable states are log 15, log 8 and log 17. -/
def Obligations.NothingFaults : Prop :=
  IsEmpty Fault ∧ ∀ (s : State) (e : Refusal), step s = .refused e → s.rst = false ∧ s.RefusedFor e

/-! ### Whole-machine rules -/

/-- R24, R28, R29, R203, R96. A step leaves the operand latches and `inited` alone unless it resets the block or
accepts a command, writes `rsp_data` only at the completion of a host-issued READ_BYTE, and never changes the build
parameters. -/
def Obligations.LatchesChangeOnlyAtAcceptance : Prop :=
  ∀ s t : State, step s = .next t → s.rst = false →
    t.params = s.params ∧
    (s.seq ≠ .idle ∨ s.cmdPort = none →
      t.op = s.op ∧ t.addr = s.addr ∧ t.txlen = s.txlen ∧ t.rxcnt = s.rxcnt ∧ t.inited = s.inited) ∧
    (∀ w, s.seq = .idle → s.cmdPort = some w → w ≠ 0x10000000 → t.inited = s.inited) ∧
    (t.rspData ≠ s.rspData → s.seq = .prim ∧ s.op = 11 ∧ s.pstep = .wait ∧ s.periph.fDone = true ∧
      t.rspData = s.periph.regData)

/-- R60, R62. The block never writes the transmit view, and writes the receive view only at the completion step of
SEQ_RX, at `idx`: up to the moves of the next slot of `env` (log 1), and so outright when no move is to come, every
other byte reads as it did. -/
def Obligations.ViewsChangeOnlyByReceivedBytes : Prop :=
  ∀ s t : State, step s = .next t →
    ∃ u : State, t = u.envStep ∧ u.env = s.env ∧ (s.env = [] → t = u) ∧ u.tx = s.tx ∧
      (u.rx = s.rx ∨
        (s.seq = .rx ∧ s.pstep = .wait ∧ s.periph.fDone = true ∧ s.rst = false ∧ s.idx.toNat < s.rxCap ∧
          Memory.read u.rx s.idx.toNat = some s.periph.regData ∧
          ∀ j, j ≠ s.idx.toNat → Memory.read u.rx j = Memory.read s.rx j))

/-- R168 and the machine of R23: the bus-level state leaves Idle only by the completion of a Start, and returns to
Idle only by the issue step of a Stop, or by reset; in a build without host primitives that Stop is the terminal
one of SEQ_STOP. -/
def Obligations.OnlyStopReleasesTheBus : Prop :=
  ∀ s t : State, s.Coherent → s.rst = false → step s = .next t →
    (s.phase ≠ .idle → t.phase = .idle →
      s.primitive = some .stop ∧ s.phase = .data ∧ t.trace = s.trace ++ [.reqStop] ∧
      (s.params.hostPrimitives = false → s.SequencerInvariant → s.seq = .stop)) ∧
    (s.phase = .idle → t.phase ≠ .idle →
      s.primitive = some .start ∧ s.pstep = .wait ∧ t.phase = .address ∧ t.trace = s.trace ++ [.done])

/-- R67, R120. A step adds at most one event: a `Req` event only at P_ISSUE of a busy block, a `Done` event only at
P_WAIT with `F_DONE` set; so the `Done` of a blocking primitive comes before the next `Req`. -/
def Obligations.EventsComeInOrder : Prop :=
  ∀ s t : State, step s = .next t →
    t.trace = s.trace ∨
    (s.rst = false ∧ s.seq ≠ .idle ∧ s.pstep = .issue ∧
      ∃ e, t.trace = s.trace ++ [e] ∧ e ≠ .done ∧ (∀ b, e ≠ .doneRead b) ∧
        (e ≠ .reqStop → t.pstep = .wait) ∧ (e = .reqStop → t.seq = .idle)) ∨
    (s.rst = false ∧ s.seq ≠ .idle ∧ s.pstep = .wait ∧ s.periph.fDone = true ∧ t.pstep = .issue ∧
      ∃ e, t.trace = s.trace ++ [e] ∧ (e = .done ∨ e = .doneRead s.periph.regData))

/-- R118, R38, R210. Two states that differ only in the slave's acknowledge, the result code and what the
peripheral will report of them have the same runs but for these: nothing the block does depends on them. -/
def Obligations.AcknowledgeAndStatusAreNeverSeen : Prop :=
  ∀ (k : Nat) (s s' : State), s.blind = s'.blind →
    blindResult (core.run k s) = blindResult (core.run k s')

/-! ### Runs -/

/-- R117, R215. While the peripheral does not finish the phase and no reset comes, the block stays in the hold for
ever: `busy` stays 1, `cmd_done` never comes, no event arises, and no command is accepted whatever the host presents. -/
def Obligations.HoldLastsUntilThePeripheralFinishes : Prop :=
  ∀ (s : State) (k : Prim), s.rst = false → s.pstep = .wait → s.primitive = some k → k ≠ .stop →
    s.periph.fDone = false →
    (∀ slot ∈ s.env, ∀ m ∈ slot, m.endsPhase = false ∧ m ≠ .setRst true) →
    ∀ n, ∃ t, core.run (n + 1) s = .next t ∧ t.seq = s.seq ∧ t.pstep = .wait ∧ t.busy = true ∧
      t.out.cmdDone = false ∧ t.cmdReady = false ∧ t.phase = s.phase ∧ t.trace = s.trace ∧ s.SameLatches t

/-- False without PERIPH_LIVE (R221, 95_test_vectors.md section 6, false variant (e)): that every accepted command
comes to its end. -/
def Obligations.EveryAcceptedCommandEnds : Prop :=
  ∀ s : State, s.Coherent → s.TriggerDiscipline → s.rst = false → s.seq ≠ .idle →
    ∃ n t, core.run n s = .next t ∧ t.seq = .idle

/-- R162, R170, R173. With a peripheral that answers each primitive after finitely many steps, WRITE_BURST sends
Start, the address byte with direction WRITE, the `n` bytes of the transmit view in order, and one Stop; `n` = 0
included. Nothing is received. The answers are moves (log 1); that the word has left the port is log 2. -/
def Obligations.WriteBurstRuns : Prop :=
  ∀ (s : State) (a : SlaveAddr) (n : Count) (bytes : List Byte) (answers : List PrimAnswer)
    (rest : List (List EnvMove)),
    s.ReadyFor (encode (.writeBurst a n)) →
    bytes.length = n.toNat → (∀ j (h : j < bytes.length), Memory.read s.tx j = some bytes[j]) →
    answers.length = n.toNat + 2 → s.env = transactionSlots answers ++ rest →
    ∃ t, core.run (transactionSlots answers).length s = .next t ∧ s.Finished t 2 a n 0 ∧ t.env = rest ∧
      t.trace = s.trace ++ addressEvents a 0 ++ bytes.flatMap writeByteEvents ++ [.reqStop] ∧
      ∀ j, Memory.read t.rx j = Memory.read s.rx j

/-- R163, R170. With such a peripheral READ_BURST sends Start and the address byte with direction READ, reads `c`
bytes with ACK for each but the last, NACK for the last, stores them in order in the receive view, and sends one
Stop; `c` = 0 included. `F_ACK` ends at 0 when a byte was read. The answers are moves (log 1); that the word has left
the port is log 2. -/
def Obligations.ReadBurstRuns : Prop :=
  ∀ (s : State) (a : SlaveAddr) (c : Count) (answers : List PrimAnswer) (rest : List (List EnvMove)),
    s.ReadyFor (encode (.readBurst a c)) → c.toNat ≤ s.rxCap →
    answers.length = c.toNat + 2 → s.env = transactionSlots answers ++ rest →
    ∃ t, core.run (transactionSlots answers).length s = .next t ∧ s.Finished t 3 a 0 c ∧ t.env = rest ∧
      t.trace = s.trace ++ addressEvents a 1 ++ readPhaseEvents ((answers.drop 2).map PrimAnswer.data) ++ [.reqStop] ∧
      receivedInto s.rx t.rx ((answers.drop 2).map PrimAnswer.data) ∧
      (c ≠ 0 → t.periph.fAck = false)

/-- R164, R168, R170. With such a peripheral WRITE_THEN_READ sends Start, the address byte with direction WRITE, the
`m` bytes, a second Start with no Stop before it, the address byte with direction READ, reads `r` bytes and stores
them in order, and sends one Stop; `m` = 0 and `r` = 0 included. The answers are moves (log 1); that the word has left
the port is log 2. -/
def Obligations.WriteThenReadRuns : Prop :=
  ∀ (s : State) (a : SlaveAddr) (m r : Count) (bytes : List Byte) (answers : List PrimAnswer)
    (rest : List (List EnvMove)),
    s.ReadyFor (encode (.writeThenRead a m r)) → r.toNat ≤ s.rxCap →
    bytes.length = m.toNat → (∀ j (h : j < bytes.length), Memory.read s.tx j = some bytes[j]) →
    answers.length = m.toNat + r.toNat + 4 → s.env = transactionSlots answers ++ rest →
    ∃ t, core.run (transactionSlots answers).length s = .next t ∧ s.Finished t 4 a m r ∧ t.env = rest ∧
      t.trace = s.trace ++ addressEvents a 0 ++ bytes.flatMap writeByteEvents ++ addressEvents a 1 ++
        readPhaseEvents ((answers.drop (m.toNat + 4)).map PrimAnswer.data) ++ [.reqStop] ∧
      receivedInto s.rx t.rx ((answers.drop (m.toNat + 4)).map PrimAnswer.data)

/-- R121. A host-issued primitive whole, from the word on the port to `cmd_done`: START, WRITE_BYTE and READ_BYTE
with their hold, STOP without one. The answer of the peripheral is a move (log 1, log 13). -/
def Obligations.HostPrimitiveRuns : Prop :=
  ∀ (s : State) (p : PrimAnswer) (rest : List (List EnvMove)),
    s.rst = false → s.seq = .idle → s.inited = true → s.params.hostPrimitives = true →
    (s.cmdPort = some 0x80000000 → s.phase = .idle ∨ s.phase = .data →
      s.periph.inFlight ≠ some .stopCondition ∨ s.params.stopThenStartOk = true →
      s.env = [] :: p.slots ++ rest →
      ∃ t, core.run (p.waits + 3) s = .next t ∧ t.seq = .idle ∧ t.phase = .address ∧ t.out.cmdDone = true ∧
        t.trace = s.trace ++ [.reqStart, .done] ∧ t.rspData = s.rspData ∧ s.SameViews t) ∧
    (s.cmdPort = some 0x90000000 → s.phase = .data → s.env = [] :: [] :: rest →
      ∃ t, core.run 2 s = .next t ∧ t.seq = .idle ∧ t.phase = .idle ∧ t.out.cmdDone = true ∧
        t.trace = s.trace ++ [.reqStop] ∧ t.rspData = s.rspData ∧ s.SameViews t) ∧
    (∀ d : Byte, s.cmdPort = some ((0xA00000 : BitVec 24) ++ d) → s.phase = .address ∨ s.phase = .data →
      s.periph.inFlight = none → s.periph.fStart = false → s.periph.fStop = false →
      s.env = [] :: p.slots ++ rest →
      ∃ t, core.run (p.waits + 3) s = .next t ∧ t.seq = .idle ∧ t.phase = .data ∧ t.out.cmdDone = true ∧
        t.trace = s.trace ++ [.reqWrite d, .done] ∧ t.rspData = s.rspData ∧ s.SameViews t) ∧
    (∀ k : Ack, s.cmdPort = some ((0x58000000 : BitVec 31) ++ k.toBit) → s.phase = .data →
      s.periph.inFlight = none → s.periph.fStart = false → s.periph.fStop = false →
      s.env = [] :: p.slots ++ rest →
      ∃ t, core.run (p.waits + 3) s = .next t ∧ t.seq = .idle ∧ t.phase = .data ∧ t.out.cmdDone = true ∧
        t.trace = s.trace ++ [.reqRead k, .doneRead p.data] ∧ t.rspData = p.data ∧ s.SameViews t)
end

