-- ==== Sys2Proof/Laws/Encoding.lean ====
section
/-! SUPPORT. Bits, fields and rows of the command word and of the primitive request word. -/

namespace Sys2Proof

theorem cmdWord_getLsbD (o : Opcode) (a : SlaveAddr) (t r : Byte) (i : Nat) :
    (cmdWord o a t r).getLsbD i =
      if i < 8 then r.getLsbD i else if i < 16 then t.getLsbD (i - 8) else if i < 20 then false
      else if i < 27 then a.getLsbD (i - 20) else if i < 28 then false else o.getLsbD (i - 28) := by
  unfold cmdWord
  simp only [BitVec.getLsbD_append]
  split_ifs <;> first | rfl | omega | simp_all

@[simp] theorem fieldOpc_cmdWord (o : Opcode) (a : SlaveAddr) (t r : Byte) : fieldOpc (cmdWord o a t r) = o := by
  apply BitVec.eq_of_getLsbD_eq; intro i hi
  simp only [fieldOpc, BitVec.getLsbD_extractLsb', cmdWord_getLsbD]
  split_ifs <;> first | omega | simp_all

@[simp] theorem fieldA7_cmdWord (o : Opcode) (a : SlaveAddr) (t r : Byte) : fieldA7 (cmdWord o a t r) = a := by
  apply BitVec.eq_of_getLsbD_eq; intro i hi
  simp only [fieldA7, BitVec.getLsbD_extractLsb', cmdWord_getLsbD]
  split_ifs <;> first | omega | simp_all

@[simp] theorem fieldTxl_cmdWord (o : Opcode) (a : SlaveAddr) (t r : Byte) : fieldTxl (cmdWord o a t r) = t := by
  apply BitVec.eq_of_getLsbD_eq; intro i hi
  simp only [fieldTxl, BitVec.getLsbD_extractLsb', cmdWord_getLsbD]
  split_ifs <;> first | omega | simp_all

@[simp] theorem fieldRxc_cmdWord (o : Opcode) (a : SlaveAddr) (t r : Byte) : fieldRxc (cmdWord o a t r) = r := by
  apply BitVec.eq_of_getLsbD_eq; intro i hi
  simp only [fieldRxc, BitVec.getLsbD_extractLsb', cmdWord_getLsbD]
  split_ifs <;> first | omega | simp_all

/-- The opcode of a word that selects a row is the row's: every mask covers bits 31:28 (R83). -/
theorem CmdRow.opcode_of_selects {r : CmdRow} {w : CmdWord} (h : r.selects w = true) : fieldOpc w = r.opcode := by
  have hw : w &&& r.mask = r.pattern := by simpa [CmdRow.selects] using h
  have hkeep : fieldOpc (w &&& r.mask) = fieldOpc w := by
    apply BitVec.eq_of_getLsbD_eq; intro i hi
    have hm : r.mask.getLsbD (28 + i) = true := by cases r <;> interval_cases i <;> decide
    simp only [fieldOpc, BitVec.getLsbD_extractLsb', BitVec.getLsbD_and, hm, hi, Bool.and_true]
  rw [← hkeep, hw]
  cases r <;> decide

theorem CmdRow.opcode_injective {r r' : CmdRow} (h : r.opcode = r'.opcode) : r = r' := by
  revert h; cases r <;> cases r' <;> decide

theorem CmdRow.mem_all (r : CmdRow) : r ∈ CmdRow.all := by cases r <;> decide

/-- The loop of R94 finds the row that the word selects. -/
theorem CmdRow.find_of_selects {r : CmdRow} {w : CmdWord} (h : r.selects w = true) :
    CmdRow.all.find? (fun q => q.selects w) = some r := by
  cases hf : CmdRow.all.find? (fun q => q.selects w) with
  | none => exact absurd h (List.find?_eq_none.1 hf r (CmdRow.mem_all r))
  | some q =>
    have hq : q.selects w = true := by simpa using List.find?_some hf
    have := (CmdRow.opcode_of_selects hq).symm.trans (CmdRow.opcode_of_selects h)
    rw [CmdRow.opcode_injective this]

theorem CmdRow.find_none {w : CmdWord} (h : ∀ r : CmdRow, r.selects w = false) :
    CmdRow.all.find? (fun q => q.selects w) = none :=
  List.find?_eq_none.2 fun r _ => by simp [h r]

/-- What a word that selects a row decodes to (R94). -/
theorem decodeCmd_of_selects {r : CmdRow} {w : CmdWord} (hp : Bool) (h : r.selects w = true) :
    decodeCmd hp w = if r.isHostPrimitive && !hp then .illegal (.hostPrimitivesOff r) else .legal (r.instr w) := by
  simp only [decodeCmd, CmdRow.find_of_selects h]

/-- A word that selects no row is illegal (R89). -/
theorem decodeCmd_of_no_row {w : CmdWord} (hp : Bool) (h : ∀ r : CmdRow, r.selects w = false) :
    ∃ why, decodeCmd hp w = .illegal why := by
  simp only [decodeCmd, CmdRow.find_none h]
  cases CmdRow.all.find? (fun r => r.opcode == fieldOpc w) with
  | none => exact ⟨_, rfl⟩
  | some r => exact ⟨_, rfl⟩

theorem selects_init : CmdRow.init.selects (cmdWord 0x1 0 0 0) = true := by decide
theorem selects_start : CmdRow.start.selects (cmdWord 0x8 0 0 0) = true := by decide
theorem selects_stop : CmdRow.stop.selects (cmdWord 0x9 0 0 0) = true := by decide
theorem selects_readByte (k : Ack) : CmdRow.readByte.selects (cmdWord 0xB 0 0 (ackByte k)) = true := by
  cases k <;> decide

theorem selects_writeBurst (a : SlaveAddr) (n : Count) :
    CmdRow.writeBurst.selects (cmdWord 0x2 a n 0) = true := by
  simp only [CmdRow.selects, beq_iff_eq]
  apply BitVec.eq_of_getLsbD_eq; intro i hi
  simp only [BitVec.getLsbD_and, cmdWord_getLsbD, CmdRow.mask, CmdRow.pattern]
  interval_cases i <;> simp

theorem selects_readBurst (a : SlaveAddr) (c : Count) :
    CmdRow.readBurst.selects (cmdWord 0x3 a 0 c) = true := by
  simp only [CmdRow.selects, beq_iff_eq]
  apply BitVec.eq_of_getLsbD_eq; intro i hi
  simp only [BitVec.getLsbD_and, cmdWord_getLsbD, CmdRow.mask, CmdRow.pattern]
  interval_cases i <;> simp

theorem selects_writeThenRead (a : SlaveAddr) (m r : Count) :
    CmdRow.writeThenRead.selects (cmdWord 0x4 a m r) = true := by
  simp only [CmdRow.selects, beq_iff_eq]
  apply BitVec.eq_of_getLsbD_eq; intro i hi
  simp only [BitVec.getLsbD_and, cmdWord_getLsbD, CmdRow.mask, CmdRow.pattern]
  interval_cases i <;> simp

theorem selects_writeByte (d : Byte) : CmdRow.writeByte.selects (cmdWord 0xA 0 0 d) = true := by
  simp only [CmdRow.selects, beq_iff_eq]
  apply BitVec.eq_of_getLsbD_eq; intro i hi
  simp only [BitVec.getLsbD_and, cmdWord_getLsbD, CmdRow.mask, CmdRow.pattern]
  interval_cases i <;> simp

/-- A bit under a row's mask is the bit of the row's pattern. -/
theorem CmdRow.bit_of_selects {r : CmdRow} {w : CmdWord} (h : r.selects w = true) (i : Nat)
    (hm : r.mask.getLsbD i = true) : w.getLsbD i = r.pattern.getLsbD i := by
  have hw : w &&& r.mask = r.pattern := by simpa [CmdRow.selects] using h
  rw [← hw, BitVec.getLsbD_and, hm, Bool.and_true]

theorem primWord_getLsbD (op : BitVec 2) (k : Ack) (d : Byte) (i : Nat) :
    (primWord op k d).getLsbD i =
      if i < 8 then d.getLsbD i else if i < 9 then k.toBit.getLsbD (i - 8) else op.getLsbD (i - 9) := by
  unfold primWord
  simp only [BitVec.getLsbD_append]
  split_ifs <;> first | rfl | omega

@[simp] theorem fieldPrimOp_primWord (op : BitVec 2) (k : Ack) (d : Byte) :
    fieldPrimOp (primWord op k d) = op := by
  apply BitVec.eq_of_getLsbD_eq; intro i hi
  simp only [fieldPrimOp, BitVec.getLsbD_extractLsb', primWord_getLsbD]
  split_ifs <;> first | omega | simp_all

@[simp] theorem extract_op_primWord (op : BitVec 2) (k : Ack) (d : Byte) :
    (primWord op k d).extractLsb' 9 2 = op := fieldPrimOp_primWord op k d

@[simp] theorem extract_data_primWord (op : BitVec 2) (k : Ack) (d : Byte) :
    (primWord op k d).extractLsb' 0 8 = d := by
  apply BitVec.eq_of_getLsbD_eq; intro i hi
  simp only [BitVec.getLsbD_extractLsb', primWord_getLsbD]
  split_ifs <;> first | omega | simp_all

@[simp] theorem extract_ack_primWord (op : BitVec 2) (k : Ack) (d : Byte) :
    (primWord op k d).extractLsb' 8 1 = k.toBit := by
  apply BitVec.eq_of_getLsbD_eq; intro i hi
  simp only [BitVec.getLsbD_extractLsb', primWord_getLsbD]
  split_ifs <;> first | omega | simp_all

@[simp] theorem ackBit_primWord (op : BitVec 2) (k : Ack) (d : Byte) :
    Ack.ofBit ((primWord op k d).getLsbD 8) = k := by
  rw [primWord_getLsbD]; cases k <;> rfl

@[simp] theorem ackBit_ackByte (k : Ack) : Ack.ofBit ((ackByte k).getLsbD 0) = k := by
  cases k <;> decide

@[simp] theorem decodePrim_start (k : Ack) (d : Byte) : decodePrim (primWord 0 k d) = .primStart := by
  simp [decodePrim]

@[simp] theorem decodePrim_stop (k : Ack) (d : Byte) : decodePrim (primWord 1 k d) = .primStop := by
  simp [decodePrim]

@[simp] theorem decodePrim_write (k : Ack) (d : Byte) : decodePrim (primWord 2 k d) = .primWrite d := by
  simp [decodePrim]

@[simp] theorem decodePrim_read (k : Ack) (d : Byte) : decodePrim (primWord 3 k d) = .primRead k := by
  simp only [decodePrim, fieldPrimOp_primWord, ackBit_primWord]
  rfl

end Sys2Proof
end

