-- ==== Sys2Proof/Laws/Memory.lean ====
section
/-! SUPPORT. The laws of a byte buffer: a read after a write, the canonical form kept, equal reads mean equal data. -/

namespace Sys2Proof.Machine

theorem Memory.read_write_same (m : Memory) (i : Nat) (b : Byte) : Memory.read (Memory.write m i b) i = some b := by
  induction m with
  | nil => simp [Memory.write, Memory.read]
  | cons c m ih =>
    obtain ⟨k, v⟩ := c
    simp only [Memory.write]
    split_ifs with h₁ h₂
    · simp [Memory.read]
    · simp [Memory.read]
    · simp [Memory.read, h₂, ih]

theorem Memory.read_write_other (m : Memory) (i j : Nat) (b : Byte) (h : j ≠ i) :
    Memory.read (Memory.write m i b) j = Memory.read m j := by
  induction m with
  | nil => simp [Memory.write, Memory.read, h]
  | cons c m ih =>
    obtain ⟨k, v⟩ := c
    simp only [Memory.write]
    split_ifs with h₁ h₂
    · simp [Memory.read, h]
    · subst h₂; simp [Memory.read, h]
    · simp [Memory.read, ih]

theorem Memory.read_write (m : Memory) (i j : Nat) (b : Byte) :
    Memory.read (Memory.write m i b) j = if j = i then some b else Memory.read m j := by
  split_ifs with h
  · rw [h, Memory.read_write_same]
  · exact Memory.read_write_other m i j b h

theorem Memory.mem_write {m : Memory} {i : Nat} {b : Byte} {c : Host.Cell} (h : c ∈ Memory.write m i b) :
    c = (i, b) ∨ c ∈ m := by
  induction m with
  | nil => exact .inl (by simpa [Memory.write] using h)
  | cons d m ih =>
    obtain ⟨k, v⟩ := d
    simp only [Memory.write] at h
    split_ifs at h with h₁ h₂
    · rcases List.mem_cons.1 h with h | h
      · exact .inl h
      · exact .inr h
    · rcases List.mem_cons.1 h with h | h
      · exact .inl h
      · exact .inr (List.mem_cons_of_mem _ h)
    · rcases List.mem_cons.1 h with h | h
      · exact .inr (h ▸ List.mem_cons_self)
      · exact (ih h).imp_right (List.mem_cons_of_mem _)

/-- A write inside the index space keeps the canonical form. -/
theorem Memory.wf_write {m : Memory} (hm : Memory.wf m) {i : Nat} (hi : i < 256) (b : Byte) :
    Memory.wf (Memory.write m i b) := by
  constructor
  · have hp := hm.1
    clear hm
    induction m with
    | nil => simp [Memory.write]
    | cons c m ih =>
      obtain ⟨k, v⟩ := c
      obtain ⟨hk, hp⟩ := List.pairwise_cons.1 hp
      simp only [Memory.write]
      split_ifs with h₁ h₂
      · refine List.pairwise_cons.2 ⟨fun c hc => ?_, List.pairwise_cons.2 ⟨hk, hp⟩⟩
        rcases List.mem_cons.1 hc with rfl | hc
        · exact h₁
        · exact lt_trans h₁ (hk c hc)
      · exact List.pairwise_cons.2 ⟨fun c hc => h₂ ▸ hk c hc, hp⟩
      · refine List.pairwise_cons.2 ⟨fun c hc => ?_, ih hp⟩
        rcases Memory.mem_write hc with rfl | hc
        · show k < i; omega
        · exact hk c hc
  · intro c hc
    rcases Memory.mem_write hc with rfl | hc
    · exact hi
    · exact hm.2 c hc

theorem Memory.mem_ofBytesFrom {bs : List Byte} {i : Nat} {c : Host.Cell} (h : c ∈ Memory.ofBytesFrom i bs) :
    i ≤ c.1 ∧ c.1 < i + bs.length := by
  induction bs generalizing i with
  | nil => simp [Memory.ofBytesFrom] at h
  | cons b bs ih =>
    rcases List.mem_cons.1 h with rfl | h
    · simp
    · have := ih h; simp only [List.length_cons]; omega

theorem Memory.pairwise_ofBytesFrom (bs : List Byte) (i : Nat) :
    (Memory.ofBytesFrom i bs).Pairwise (fun c d => c.1 < d.1) := by
  induction bs generalizing i with
  | nil => simp [Memory.ofBytesFrom]
  | cons b bs ih =>
    exact List.pairwise_cons.2 ⟨fun c hc => (Memory.mem_ofBytesFrom hc).1, ih (i + 1)⟩

/-- A new view is in canonical form. -/
theorem Memory.wf_ofBytes (bs : List Byte) : Memory.wf (Memory.ofBytes bs) := by
  refine ⟨Memory.pairwise_ofBytesFrom _ _, fun c hc => ?_⟩
  have := (Memory.mem_ofBytesFrom hc).2
  have := List.length_take_le 256 bs
  omega

theorem Memory.read_ofBytesFrom (bs : List Byte) (i j : Nat) :
    Memory.read (Memory.ofBytesFrom i bs) (i + j) = bs[j]? := by
  induction bs generalizing i j with
  | nil => simp [Memory.ofBytesFrom, Memory.read]
  | cons b bs ih =>
    cases j with
    | zero => simp [Memory.ofBytesFrom, Memory.read]
    | succ j =>
      have h := ih (i + 1) j
      rw [show i + 1 + j = i + (j + 1) by omega] at h
      simp [Memory.ofBytesFrom, Memory.read, h]

/-- Byte `j` of a new view is byte `j` of what was passed. -/
theorem Memory.read_ofBytes (bs : List Byte) (j : Nat) (hj : j < 256) :
    Memory.read (Memory.ofBytes bs) j = bs[j]? := by
  have h := Memory.read_ofBytesFrom (bs.take 256) 0 j
  rw [Nat.zero_add] at h
  rw [Memory.ofBytes, h, List.getElem?_take_of_lt hj]

theorem Memory.read_none_of_lt {m : Memory} {j : Nat} (h : ∀ c ∈ m, j < c.1) : Memory.read m j = none := by
  induction m with
  | nil => rfl
  | cons c m ih =>
    obtain ⟨k, v⟩ := c
    have hk := h (k, v) List.mem_cons_self
    simp only [Memory.read]
    rw [if_neg (by simp only at hk; omega)]
    exact ih fun c hc => h c (List.mem_cons_of_mem _ hc)

theorem Memory.eq_of_rising {m n : Memory} (hm : m.Pairwise (fun c d => c.1 < d.1))
    (hn : n.Pairwise (fun c d => c.1 < d.1)) (h : ∀ j, Memory.read m j = Memory.read n j) : m = n := by
  induction m generalizing n with
  | nil =>
    cases n with
    | nil => rfl
    | cons d n => have := h d.1; simp [Memory.read] at this
  | cons c m ih =>
    obtain ⟨k, v⟩ := c
    obtain ⟨hk, hm'⟩ := List.pairwise_cons.1 hm
    cases n with
    | nil => have := h k; simp [Memory.read] at this
    | cons d n =>
      obtain ⟨l, w⟩ := d
      obtain ⟨hl, hn'⟩ := List.pairwise_cons.1 hn
      have hkl : k = l := by
        rcases lt_trichotomy k l with hlt | heq | hgt
        · have hr := h k
          have hn0 : Memory.read ((l, w) :: n) k = none := Memory.read_none_of_lt fun c hc => by
            rcases List.mem_cons.1 hc with rfl | hc
            · exact hlt
            · exact lt_trans hlt (hl c hc)
          rw [hn0] at hr; simp [Memory.read] at hr
        · exact heq
        · have hr := h l
          have hm0 : Memory.read ((k, v) :: m) l = none := Memory.read_none_of_lt fun c hc => by
            rcases List.mem_cons.1 hc with rfl | hc
            · exact hgt
            · exact lt_trans hgt (hk c hc)
          rw [hm0] at hr; simp [Memory.read] at hr
      subst hkl
      have hv : v = w := by simpa [Memory.read] using h k
      subst hv
      congr 1
      refine ih hm' hn' fun j => ?_
      by_cases hj : j = k
      · subst hj; rw [Memory.read_none_of_lt hk, Memory.read_none_of_lt hl]
      · simpa [Memory.read, hj] using h j

/-- Two buffers in canonical form that read alike are equal data. -/
theorem Memory.ext_of_read {m n : Memory} (hm : Memory.wf m) (hn : Memory.wf n)
    (h : ∀ j, Memory.read m j = Memory.read n j) : m = n := Memory.eq_of_rising hm.1 hn.1 h

end Sys2Proof.Machine
end

