-- ==== Sys2Proof/Laws/State.lean ====
section
/-! SUPPORT. One lemma per field for each operation that updates the state record, true by rfl, so that no later
proof unfolds a record update. -/

namespace Sys2Proof.Machine

@[simp] theorem State.emit_params (s : State) (e : Event) : (s.emit e).params = s.params := rfl
@[simp] theorem State.emit_rst (s : State) (e : Event) : (s.emit e).rst = s.rst := rfl
@[simp] theorem State.emit_cmdPort (s : State) (e : Event) : (s.emit e).cmdPort = s.cmdPort := rfl
@[simp] theorem State.emit_seq (s : State) (e : Event) : (s.emit e).seq = s.seq := rfl
@[simp] theorem State.emit_pstep (s : State) (e : Event) : (s.emit e).pstep = s.pstep := rfl
@[simp] theorem State.emit_phase (s : State) (e : Event) : (s.emit e).phase = s.phase := rfl
@[simp] theorem State.emit_op (s : State) (e : Event) : (s.emit e).op = s.op := rfl
@[simp] theorem State.emit_addr (s : State) (e : Event) : (s.emit e).addr = s.addr := rfl
@[simp] theorem State.emit_txlen (s : State) (e : Event) : (s.emit e).txlen = s.txlen := rfl
@[simp] theorem State.emit_rxcnt (s : State) (e : Event) : (s.emit e).rxcnt = s.rxcnt := rfl
@[simp] theorem State.emit_idx (s : State) (e : Event) : (s.emit e).idx = s.idx := rfl
@[simp] theorem State.emit_rspData (s : State) (e : Event) : (s.emit e).rspData = s.rspData := rfl
@[simp] theorem State.emit_inited (s : State) (e : Event) : (s.emit e).inited = s.inited := rfl
@[simp] theorem State.emit_out (s : State) (e : Event) : (s.emit e).out = s.out := rfl
@[simp] theorem State.emit_tx (s : State) (e : Event) : (s.emit e).tx = s.tx := rfl
@[simp] theorem State.emit_rx (s : State) (e : Event) : (s.emit e).rx = s.rx := rfl
@[simp] theorem State.emit_rxCap (s : State) (e : Event) : (s.emit e).rxCap = s.rxCap := rfl
@[simp] theorem State.emit_periph (s : State) (e : Event) : (s.emit e).periph = s.periph := rfl
@[simp] theorem State.emit_trace (s : State) (e : Event) : (s.emit e).trace = s.trace ++ [e] := rfl
@[simp] theorem State.emit_calls (s : State) (e : Event) : (s.emit e).calls = s.calls := rfl
@[simp] theorem State.emit_env (s : State) (e : Event) : (s.emit e).env = s.env := rfl
@[simp] theorem State.emit_freeCtr (s : State) (e : Event) : (s.emit e).freeCtr = s.freeCtr := rfl

@[simp] theorem State.setControlBit_params (s : State) (f : CtrlFlag) : (s.setControlBit f).params = s.params := rfl
@[simp] theorem State.setControlBit_rst (s : State) (f : CtrlFlag) : (s.setControlBit f).rst = s.rst := rfl
@[simp] theorem State.setControlBit_cmdPort (s : State) (f : CtrlFlag) : (s.setControlBit f).cmdPort = s.cmdPort := rfl
@[simp] theorem State.setControlBit_seq (s : State) (f : CtrlFlag) : (s.setControlBit f).seq = s.seq := rfl
@[simp] theorem State.setControlBit_pstep (s : State) (f : CtrlFlag) : (s.setControlBit f).pstep = s.pstep := rfl
@[simp] theorem State.setControlBit_phase (s : State) (f : CtrlFlag) : (s.setControlBit f).phase = s.phase := rfl
@[simp] theorem State.setControlBit_op (s : State) (f : CtrlFlag) : (s.setControlBit f).op = s.op := rfl
@[simp] theorem State.setControlBit_addr (s : State) (f : CtrlFlag) : (s.setControlBit f).addr = s.addr := rfl
@[simp] theorem State.setControlBit_txlen (s : State) (f : CtrlFlag) : (s.setControlBit f).txlen = s.txlen := rfl
@[simp] theorem State.setControlBit_rxcnt (s : State) (f : CtrlFlag) : (s.setControlBit f).rxcnt = s.rxcnt := rfl
@[simp] theorem State.setControlBit_idx (s : State) (f : CtrlFlag) : (s.setControlBit f).idx = s.idx := rfl
@[simp] theorem State.setControlBit_rspData (s : State) (f : CtrlFlag) : (s.setControlBit f).rspData = s.rspData := rfl
@[simp] theorem State.setControlBit_inited (s : State) (f : CtrlFlag) : (s.setControlBit f).inited = s.inited := rfl
@[simp] theorem State.setControlBit_out (s : State) (f : CtrlFlag) : (s.setControlBit f).out = s.out := rfl
@[simp] theorem State.setControlBit_tx (s : State) (f : CtrlFlag) : (s.setControlBit f).tx = s.tx := rfl
@[simp] theorem State.setControlBit_rx (s : State) (f : CtrlFlag) : (s.setControlBit f).rx = s.rx := rfl
@[simp] theorem State.setControlBit_rxCap (s : State) (f : CtrlFlag) : (s.setControlBit f).rxCap = s.rxCap := rfl
@[simp] theorem State.setControlBit_periph (s : State) (f : CtrlFlag) : (s.setControlBit f).periph = s.periph.setControlBit f := rfl
@[simp] theorem State.setControlBit_trace (s : State) (f : CtrlFlag) : (s.setControlBit f).trace = s.trace := rfl
@[simp] theorem State.setControlBit_calls (s : State) (f : CtrlFlag) : (s.setControlBit f).calls = s.calls ++ [.setControlBit f] := rfl
@[simp] theorem State.setControlBit_env (s : State) (f : CtrlFlag) : (s.setControlBit f).env = s.env := rfl
@[simp] theorem State.setControlBit_freeCtr (s : State) (f : CtrlFlag) : (s.setControlBit f).freeCtr = s.freeCtr := rfl

@[simp] theorem State.clearControlBit_params (s : State) (f : CtrlFlag) : (s.clearControlBit f).params = s.params := rfl
@[simp] theorem State.clearControlBit_rst (s : State) (f : CtrlFlag) : (s.clearControlBit f).rst = s.rst := rfl
@[simp] theorem State.clearControlBit_cmdPort (s : State) (f : CtrlFlag) : (s.clearControlBit f).cmdPort = s.cmdPort := rfl
@[simp] theorem State.clearControlBit_seq (s : State) (f : CtrlFlag) : (s.clearControlBit f).seq = s.seq := rfl
@[simp] theorem State.clearControlBit_pstep (s : State) (f : CtrlFlag) : (s.clearControlBit f).pstep = s.pstep := rfl
@[simp] theorem State.clearControlBit_phase (s : State) (f : CtrlFlag) : (s.clearControlBit f).phase = s.phase := rfl
@[simp] theorem State.clearControlBit_op (s : State) (f : CtrlFlag) : (s.clearControlBit f).op = s.op := rfl
@[simp] theorem State.clearControlBit_addr (s : State) (f : CtrlFlag) : (s.clearControlBit f).addr = s.addr := rfl
@[simp] theorem State.clearControlBit_txlen (s : State) (f : CtrlFlag) : (s.clearControlBit f).txlen = s.txlen := rfl
@[simp] theorem State.clearControlBit_rxcnt (s : State) (f : CtrlFlag) : (s.clearControlBit f).rxcnt = s.rxcnt := rfl
@[simp] theorem State.clearControlBit_idx (s : State) (f : CtrlFlag) : (s.clearControlBit f).idx = s.idx := rfl
@[simp] theorem State.clearControlBit_rspData (s : State) (f : CtrlFlag) : (s.clearControlBit f).rspData = s.rspData := rfl
@[simp] theorem State.clearControlBit_inited (s : State) (f : CtrlFlag) : (s.clearControlBit f).inited = s.inited := rfl
@[simp] theorem State.clearControlBit_out (s : State) (f : CtrlFlag) : (s.clearControlBit f).out = s.out := rfl
@[simp] theorem State.clearControlBit_tx (s : State) (f : CtrlFlag) : (s.clearControlBit f).tx = s.tx := rfl
@[simp] theorem State.clearControlBit_rx (s : State) (f : CtrlFlag) : (s.clearControlBit f).rx = s.rx := rfl
@[simp] theorem State.clearControlBit_rxCap (s : State) (f : CtrlFlag) : (s.clearControlBit f).rxCap = s.rxCap := rfl
@[simp] theorem State.clearControlBit_periph (s : State) (f : CtrlFlag) : (s.clearControlBit f).periph = s.periph.clearControlBit f := rfl
@[simp] theorem State.clearControlBit_trace (s : State) (f : CtrlFlag) : (s.clearControlBit f).trace = s.trace := rfl
@[simp] theorem State.clearControlBit_calls (s : State) (f : CtrlFlag) : (s.clearControlBit f).calls = s.calls ++ [.clearControlBit f] := rfl
@[simp] theorem State.clearControlBit_env (s : State) (f : CtrlFlag) : (s.clearControlBit f).env = s.env := rfl
@[simp] theorem State.clearControlBit_freeCtr (s : State) (f : CtrlFlag) : (s.clearControlBit f).freeCtr = s.freeCtr := rfl

@[simp] theorem State.writeDataRegister_params (s : State) (b : Byte) : (s.writeDataRegister b).params = s.params := rfl
@[simp] theorem State.writeDataRegister_rst (s : State) (b : Byte) : (s.writeDataRegister b).rst = s.rst := rfl
@[simp] theorem State.writeDataRegister_cmdPort (s : State) (b : Byte) : (s.writeDataRegister b).cmdPort = s.cmdPort := rfl
@[simp] theorem State.writeDataRegister_seq (s : State) (b : Byte) : (s.writeDataRegister b).seq = s.seq := rfl
@[simp] theorem State.writeDataRegister_pstep (s : State) (b : Byte) : (s.writeDataRegister b).pstep = s.pstep := rfl
@[simp] theorem State.writeDataRegister_phase (s : State) (b : Byte) : (s.writeDataRegister b).phase = s.phase := rfl
@[simp] theorem State.writeDataRegister_op (s : State) (b : Byte) : (s.writeDataRegister b).op = s.op := rfl
@[simp] theorem State.writeDataRegister_addr (s : State) (b : Byte) : (s.writeDataRegister b).addr = s.addr := rfl
@[simp] theorem State.writeDataRegister_txlen (s : State) (b : Byte) : (s.writeDataRegister b).txlen = s.txlen := rfl
@[simp] theorem State.writeDataRegister_rxcnt (s : State) (b : Byte) : (s.writeDataRegister b).rxcnt = s.rxcnt := rfl
@[simp] theorem State.writeDataRegister_idx (s : State) (b : Byte) : (s.writeDataRegister b).idx = s.idx := rfl
@[simp] theorem State.writeDataRegister_rspData (s : State) (b : Byte) : (s.writeDataRegister b).rspData = s.rspData := rfl
@[simp] theorem State.writeDataRegister_inited (s : State) (b : Byte) : (s.writeDataRegister b).inited = s.inited := rfl
@[simp] theorem State.writeDataRegister_out (s : State) (b : Byte) : (s.writeDataRegister b).out = s.out := rfl
@[simp] theorem State.writeDataRegister_tx (s : State) (b : Byte) : (s.writeDataRegister b).tx = s.tx := rfl
@[simp] theorem State.writeDataRegister_rx (s : State) (b : Byte) : (s.writeDataRegister b).rx = s.rx := rfl
@[simp] theorem State.writeDataRegister_rxCap (s : State) (b : Byte) : (s.writeDataRegister b).rxCap = s.rxCap := rfl
@[simp] theorem State.writeDataRegister_periph (s : State) (b : Byte) : (s.writeDataRegister b).periph = { s.periph with regData := b } := rfl
@[simp] theorem State.writeDataRegister_trace (s : State) (b : Byte) : (s.writeDataRegister b).trace = s.trace := rfl
@[simp] theorem State.writeDataRegister_calls (s : State) (b : Byte) : (s.writeDataRegister b).calls = s.calls ++ [.writeDataRegister b] := rfl
@[simp] theorem State.writeDataRegister_env (s : State) (b : Byte) : (s.writeDataRegister b).env = s.env := rfl
@[simp] theorem State.writeDataRegister_freeCtr (s : State) (b : Byte) : (s.writeDataRegister b).freeCtr = s.freeCtr := rfl

@[simp] theorem State.setRateDivisor_params (s : State) (v : Nat) : (s.setRateDivisor v).params = s.params := rfl
@[simp] theorem State.setRateDivisor_rst (s : State) (v : Nat) : (s.setRateDivisor v).rst = s.rst := rfl
@[simp] theorem State.setRateDivisor_cmdPort (s : State) (v : Nat) : (s.setRateDivisor v).cmdPort = s.cmdPort := rfl
@[simp] theorem State.setRateDivisor_seq (s : State) (v : Nat) : (s.setRateDivisor v).seq = s.seq := rfl
@[simp] theorem State.setRateDivisor_pstep (s : State) (v : Nat) : (s.setRateDivisor v).pstep = s.pstep := rfl
@[simp] theorem State.setRateDivisor_phase (s : State) (v : Nat) : (s.setRateDivisor v).phase = s.phase := rfl
@[simp] theorem State.setRateDivisor_op (s : State) (v : Nat) : (s.setRateDivisor v).op = s.op := rfl
@[simp] theorem State.setRateDivisor_addr (s : State) (v : Nat) : (s.setRateDivisor v).addr = s.addr := rfl
@[simp] theorem State.setRateDivisor_txlen (s : State) (v : Nat) : (s.setRateDivisor v).txlen = s.txlen := rfl
@[simp] theorem State.setRateDivisor_rxcnt (s : State) (v : Nat) : (s.setRateDivisor v).rxcnt = s.rxcnt := rfl
@[simp] theorem State.setRateDivisor_idx (s : State) (v : Nat) : (s.setRateDivisor v).idx = s.idx := rfl
@[simp] theorem State.setRateDivisor_rspData (s : State) (v : Nat) : (s.setRateDivisor v).rspData = s.rspData := rfl
@[simp] theorem State.setRateDivisor_inited (s : State) (v : Nat) : (s.setRateDivisor v).inited = s.inited := rfl
@[simp] theorem State.setRateDivisor_out (s : State) (v : Nat) : (s.setRateDivisor v).out = s.out := rfl
@[simp] theorem State.setRateDivisor_tx (s : State) (v : Nat) : (s.setRateDivisor v).tx = s.tx := rfl
@[simp] theorem State.setRateDivisor_rx (s : State) (v : Nat) : (s.setRateDivisor v).rx = s.rx := rfl
@[simp] theorem State.setRateDivisor_rxCap (s : State) (v : Nat) : (s.setRateDivisor v).rxCap = s.rxCap := rfl
@[simp] theorem State.setRateDivisor_periph (s : State) (v : Nat) : (s.setRateDivisor v).periph = { s.periph with regRate := v } := rfl
@[simp] theorem State.setRateDivisor_trace (s : State) (v : Nat) : (s.setRateDivisor v).trace = s.trace := rfl
@[simp] theorem State.setRateDivisor_calls (s : State) (v : Nat) : (s.setRateDivisor v).calls = s.calls ++ [.setRateDivisor v] := rfl
@[simp] theorem State.setRateDivisor_env (s : State) (v : Nat) : (s.setRateDivisor v).env = s.env := rfl
@[simp] theorem State.setRateDivisor_freeCtr (s : State) (v : Nat) : (s.setRateDivisor v).freeCtr = s.freeCtr := rfl

@[simp] theorem State.waitReturned_params (s : State) : s.waitReturned.params = s.params := rfl
@[simp] theorem State.waitReturned_rst (s : State) : s.waitReturned.rst = s.rst := rfl
@[simp] theorem State.waitReturned_cmdPort (s : State) : s.waitReturned.cmdPort = s.cmdPort := rfl
@[simp] theorem State.waitReturned_seq (s : State) : s.waitReturned.seq = s.seq := rfl
@[simp] theorem State.waitReturned_pstep (s : State) : s.waitReturned.pstep = s.pstep := rfl
@[simp] theorem State.waitReturned_phase (s : State) : s.waitReturned.phase = s.phase := rfl
@[simp] theorem State.waitReturned_op (s : State) : s.waitReturned.op = s.op := rfl
@[simp] theorem State.waitReturned_addr (s : State) : s.waitReturned.addr = s.addr := rfl
@[simp] theorem State.waitReturned_txlen (s : State) : s.waitReturned.txlen = s.txlen := rfl
@[simp] theorem State.waitReturned_rxcnt (s : State) : s.waitReturned.rxcnt = s.rxcnt := rfl
@[simp] theorem State.waitReturned_idx (s : State) : s.waitReturned.idx = s.idx := rfl
@[simp] theorem State.waitReturned_rspData (s : State) : s.waitReturned.rspData = s.rspData := rfl
@[simp] theorem State.waitReturned_inited (s : State) : s.waitReturned.inited = s.inited := rfl
@[simp] theorem State.waitReturned_out (s : State) : s.waitReturned.out = s.out := rfl
@[simp] theorem State.waitReturned_tx (s : State) : s.waitReturned.tx = s.tx := rfl
@[simp] theorem State.waitReturned_rx (s : State) : s.waitReturned.rx = s.rx := rfl
@[simp] theorem State.waitReturned_rxCap (s : State) : s.waitReturned.rxCap = s.rxCap := rfl
@[simp] theorem State.waitReturned_periph (s : State) : s.waitReturned.periph = s.periph := rfl
@[simp] theorem State.waitReturned_trace (s : State) : s.waitReturned.trace = s.trace := rfl
@[simp] theorem State.waitReturned_calls (s : State) : s.waitReturned.calls = s.calls ++ [.waitUntilAsserted .ctrl .fDone] := rfl
@[simp] theorem State.waitReturned_env (s : State) : s.waitReturned.env = s.env := rfl
@[simp] theorem State.waitReturned_freeCtr (s : State) : s.waitReturned.freeCtr = s.freeCtr := rfl

@[simp] theorem State.readDataRegister_params (s : State) : s.readDataRegister.params = s.params := rfl
@[simp] theorem State.readDataRegister_rst (s : State) : s.readDataRegister.rst = s.rst := rfl
@[simp] theorem State.readDataRegister_cmdPort (s : State) : s.readDataRegister.cmdPort = s.cmdPort := rfl
@[simp] theorem State.readDataRegister_seq (s : State) : s.readDataRegister.seq = s.seq := rfl
@[simp] theorem State.readDataRegister_pstep (s : State) : s.readDataRegister.pstep = s.pstep := rfl
@[simp] theorem State.readDataRegister_phase (s : State) : s.readDataRegister.phase = s.phase := rfl
@[simp] theorem State.readDataRegister_op (s : State) : s.readDataRegister.op = s.op := rfl
@[simp] theorem State.readDataRegister_addr (s : State) : s.readDataRegister.addr = s.addr := rfl
@[simp] theorem State.readDataRegister_txlen (s : State) : s.readDataRegister.txlen = s.txlen := rfl
@[simp] theorem State.readDataRegister_rxcnt (s : State) : s.readDataRegister.rxcnt = s.rxcnt := rfl
@[simp] theorem State.readDataRegister_idx (s : State) : s.readDataRegister.idx = s.idx := rfl
@[simp] theorem State.readDataRegister_rspData (s : State) : s.readDataRegister.rspData = s.rspData := rfl
@[simp] theorem State.readDataRegister_inited (s : State) : s.readDataRegister.inited = s.inited := rfl
@[simp] theorem State.readDataRegister_out (s : State) : s.readDataRegister.out = s.out := rfl
@[simp] theorem State.readDataRegister_tx (s : State) : s.readDataRegister.tx = s.tx := rfl
@[simp] theorem State.readDataRegister_rx (s : State) : s.readDataRegister.rx = s.rx := rfl
@[simp] theorem State.readDataRegister_rxCap (s : State) : s.readDataRegister.rxCap = s.rxCap := rfl
@[simp] theorem State.readDataRegister_periph (s : State) : s.readDataRegister.periph = s.periph := rfl
@[simp] theorem State.readDataRegister_trace (s : State) : s.readDataRegister.trace = s.trace := rfl
@[simp] theorem State.readDataRegister_calls (s : State) : s.readDataRegister.calls = s.calls ++ [.readDataRegister s.periph.regData] := rfl
@[simp] theorem State.readDataRegister_env (s : State) : s.readDataRegister.env = s.env := rfl
@[simp] theorem State.readDataRegister_freeCtr (s : State) : s.readDataRegister.freeCtr = s.freeCtr := rfl

@[simp] theorem State.hold_params (s : State) : s.hold.params = s.params := rfl
@[simp] theorem State.hold_rst (s : State) : s.hold.rst = s.rst := rfl
@[simp] theorem State.hold_cmdPort (s : State) : s.hold.cmdPort = s.cmdPort := rfl
@[simp] theorem State.hold_seq (s : State) : s.hold.seq = s.seq := rfl
@[simp] theorem State.hold_pstep (s : State) : s.hold.pstep = s.pstep := rfl
@[simp] theorem State.hold_phase (s : State) : s.hold.phase = s.phase := rfl
@[simp] theorem State.hold_op (s : State) : s.hold.op = s.op := rfl
@[simp] theorem State.hold_addr (s : State) : s.hold.addr = s.addr := rfl
@[simp] theorem State.hold_txlen (s : State) : s.hold.txlen = s.txlen := rfl
@[simp] theorem State.hold_rxcnt (s : State) : s.hold.rxcnt = s.rxcnt := rfl
@[simp] theorem State.hold_idx (s : State) : s.hold.idx = s.idx := rfl
@[simp] theorem State.hold_rspData (s : State) : s.hold.rspData = s.rspData := rfl
@[simp] theorem State.hold_inited (s : State) : s.hold.inited = s.inited := rfl
@[simp] theorem State.hold_out (s : State) : s.hold.out = Outputs.quiet := rfl
@[simp] theorem State.hold_tx (s : State) : s.hold.tx = s.tx := rfl
@[simp] theorem State.hold_rx (s : State) : s.hold.rx = s.rx := rfl
@[simp] theorem State.hold_rxCap (s : State) : s.hold.rxCap = s.rxCap := rfl
@[simp] theorem State.hold_periph (s : State) : s.hold.periph = s.periph := rfl
@[simp] theorem State.hold_trace (s : State) : s.hold.trace = s.trace := rfl
@[simp] theorem State.hold_calls (s : State) : s.hold.calls = s.calls := rfl
@[simp] theorem State.hold_env (s : State) : s.hold.env = s.env := rfl
@[simp] theorem State.hold_freeCtr (s : State) : s.hold.freeCtr = s.freeCtr := rfl

@[simp] theorem State.idleStep_params (s : State) : s.idleStep.params = s.params := rfl
@[simp] theorem State.idleStep_rst (s : State) : s.idleStep.rst = s.rst := rfl
@[simp] theorem State.idleStep_cmdPort (s : State) : s.idleStep.cmdPort = s.cmdPort := rfl
@[simp] theorem State.idleStep_seq (s : State) : s.idleStep.seq = s.seq := rfl
@[simp] theorem State.idleStep_pstep (s : State) : s.idleStep.pstep = s.pstep := rfl
@[simp] theorem State.idleStep_phase (s : State) : s.idleStep.phase = s.phase := rfl
@[simp] theorem State.idleStep_op (s : State) : s.idleStep.op = s.op := rfl
@[simp] theorem State.idleStep_addr (s : State) : s.idleStep.addr = s.addr := rfl
@[simp] theorem State.idleStep_txlen (s : State) : s.idleStep.txlen = s.txlen := rfl
@[simp] theorem State.idleStep_rxcnt (s : State) : s.idleStep.rxcnt = s.rxcnt := rfl
@[simp] theorem State.idleStep_idx (s : State) : s.idleStep.idx = s.idx := rfl
@[simp] theorem State.idleStep_rspData (s : State) : s.idleStep.rspData = s.rspData := rfl
@[simp] theorem State.idleStep_inited (s : State) : s.idleStep.inited = s.inited := rfl
@[simp] theorem State.idleStep_out (s : State) : s.idleStep.out = Outputs.quiet := rfl
@[simp] theorem State.idleStep_tx (s : State) : s.idleStep.tx = s.tx := rfl
@[simp] theorem State.idleStep_rx (s : State) : s.idleStep.rx = s.rx := rfl
@[simp] theorem State.idleStep_rxCap (s : State) : s.idleStep.rxCap = s.rxCap := rfl
@[simp] theorem State.idleStep_periph (s : State) : s.idleStep.periph = s.periph := rfl
@[simp] theorem State.idleStep_trace (s : State) : s.idleStep.trace = s.trace := rfl
@[simp] theorem State.idleStep_calls (s : State) : s.idleStep.calls = s.calls := rfl
@[simp] theorem State.idleStep_env (s : State) : s.idleStep.env = s.env := rfl
@[simp] theorem State.idleStep_freeCtr (s : State) : s.idleStep.freeCtr = s.freeCtr := rfl

@[simp] theorem Periph.trigger_fStart (p : Periph) : p.trigger.fStart = p.fStart := rfl
@[simp] theorem Periph.trigger_fStop (p : Periph) : p.trigger.fStop = p.fStop := rfl
@[simp] theorem Periph.trigger_fAck (p : Periph) : p.trigger.fAck = p.fAck := rfl
@[simp] theorem Periph.trigger_fGo (p : Periph) : p.trigger.fGo = false := rfl
@[simp] theorem Periph.trigger_fDone (p : Periph) : p.trigger.fDone = false := rfl
@[simp] theorem Periph.trigger_fEn (p : Periph) : p.trigger.fEn = p.fEn := rfl
@[simp] theorem Periph.trigger_regStatus (p : Periph) : p.trigger.regStatus = p.regStatus := rfl
@[simp] theorem Periph.trigger_regData (p : Periph) : p.trigger.regData = p.regData := rfl
@[simp] theorem Periph.trigger_regRate (p : Periph) : p.trigger.regRate = p.regRate := rfl
@[simp] theorem Periph.trigger_prescale (p : Periph) : p.trigger.prescale = p.prescale := rfl
@[simp] theorem Periph.trigger_inFlight (p : Periph) : p.trigger.inFlight = some p.described := rfl
@[simp] theorem Periph.trigger_tracking (p : Periph) : p.trigger.tracking = p.tracking := rfl
@[simp] theorem Periph.trigger_slaveAck (p : Periph) : p.trigger.slaveAck = p.slaveAck := rfl

@[simp] theorem Periph.setControlBit_fStart (p : Periph) : p.setControlBit .fStart = { p with fStart := true } := rfl
@[simp] theorem Periph.setControlBit_fStop (p : Periph) : p.setControlBit .fStop = { p with fStop := true } := rfl
@[simp] theorem Periph.setControlBit_fAck (p : Periph) : p.setControlBit .fAck = { p with fAck := true } := rfl
@[simp] theorem Periph.setControlBit_fEn (p : Periph) : p.setControlBit .fEn = { p with fEn := true } := rfl
@[simp] theorem Periph.setControlBit_fDone (p : Periph) : p.setControlBit .fDone = { p with fDone := true } := rfl
@[simp] theorem Periph.clearControlBit_fStart (p : Periph) : p.clearControlBit .fStart = { p with fStart := false } := rfl
@[simp] theorem Periph.clearControlBit_fStop (p : Periph) : p.clearControlBit .fStop = { p with fStop := false } := rfl
@[simp] theorem Periph.clearControlBit_fAck (p : Periph) : p.clearControlBit .fAck = { p with fAck := false } := rfl
@[simp] theorem Periph.clearControlBit_fEn (p : Periph) : p.clearControlBit .fEn = { p with fEn := false } := rfl
@[simp] theorem Periph.clearControlBit_fDone (p : Periph) : p.clearControlBit .fDone = { p with fDone := false } := rfl
@[simp] theorem Periph.setControlBit_fGo (p : Periph) : p.setControlBit .fGo = p.trigger := rfl
@[simp] theorem Periph.clearControlBit_fGo (p : Periph) : p.clearControlBit .fGo = { p with fGo := false } := rfl

@[simp] theorem State.resetStep_params (s : State) : s.resetStep.params = s.params := rfl
@[simp] theorem State.resetStep_rst (s : State) : s.resetStep.rst = s.rst := rfl
@[simp] theorem State.resetStep_cmdPort (s : State) : s.resetStep.cmdPort = s.cmdPort := rfl
@[simp] theorem State.resetStep_seq (s : State) : s.resetStep.seq = .idle := rfl
@[simp] theorem State.resetStep_pstep (s : State) : s.resetStep.pstep = .issue := rfl
@[simp] theorem State.resetStep_phase (s : State) : s.resetStep.phase = .idle := rfl
@[simp] theorem State.resetStep_op (s : State) : s.resetStep.op = State.reset.op := rfl
@[simp] theorem State.resetStep_addr (s : State) : s.resetStep.addr = State.reset.addr := rfl
@[simp] theorem State.resetStep_txlen (s : State) : s.resetStep.txlen = State.reset.txlen := rfl
@[simp] theorem State.resetStep_rxcnt (s : State) : s.resetStep.rxcnt = State.reset.rxcnt := rfl
@[simp] theorem State.resetStep_idx (s : State) : s.resetStep.idx = State.reset.idx := rfl
@[simp] theorem State.resetStep_rspData (s : State) : s.resetStep.rspData = State.reset.rspData := rfl
@[simp] theorem State.resetStep_inited (s : State) : s.resetStep.inited = false := rfl
@[simp] theorem State.resetStep_out (s : State) : s.resetStep.out = Outputs.quiet := rfl
@[simp] theorem State.resetStep_tx (s : State) : s.resetStep.tx = s.tx := rfl
@[simp] theorem State.resetStep_rx (s : State) : s.resetStep.rx = s.rx := rfl
@[simp] theorem State.resetStep_rxCap (s : State) : s.resetStep.rxCap = s.rxCap := rfl
@[simp] theorem State.resetStep_trace (s : State) : s.resetStep.trace = s.trace := rfl
@[simp] theorem State.resetStep_calls (s : State) : s.resetStep.calls = s.calls := rfl
@[simp] theorem State.resetStep_env (s : State) : s.resetStep.env = s.env := rfl

end Sys2Proof.Machine
end

