-- ==== Sys2Proof/Laws/Ops.lean ====
section
/-! SUPPORT. What the shared operations can do: the moves of the other agents leave the block alone, the issue and
completion steps of a primitive as one record each, and the result of a step after the moves. -/

namespace Sys2Proof.Machine

/-! ### The host and the peripheral -/

/-- What no move changes, no slot of moves changes. -/
theorem State.envMoves_keeps {α : Type} (f : State → α) (h : ∀ s m, f (s.envMove m) = f s) (s : State)
    (ms : List EnvMove) : f (s.envMoves ms) = f s := by
  induction ms generalizing s with
  | nil => rfl
  | cons m ms ih => exact (ih (s.envMove m)).trans (h s m)

/-- What neither a move nor the list of moves changes, the step of the other agents leaves alone. -/
theorem State.envStep_keeps {α : Type} (f : State → α) (h : ∀ s m, f (s.envMove m) = f s)
    (he : ∀ (s : State) l, f { s with env := l } = f s) (s : State) : f s.envStep = f s := by
  unfold State.envStep
  split
  · rfl
  · rw [State.envMoves_keeps f h, he]

/-- A property that each move keeps is kept by the step of the other agents. -/
theorem State.envStep_induct {P : State → Prop} (h : ∀ s m, P s → P (s.envMove m))
    (he : ∀ (s : State) l, P s → P { s with env := l }) {s : State} (hs : P s) : P s.envStep := by
  have key : ∀ ms (u : State), P u → P (u.envMoves ms) := by
    intro ms
    induction ms with
    | nil => exact fun u hu => hu
    | cons m ms ih => exact fun u hu => ih _ (h u m hu)
  unfold State.envStep
  split
  · exact hs
  · exact key _ _ (he _ _ hs)

theorem State.envMove_params (s : State) (m : EnvMove) : (s.envMove m).params = s.params := by
  cases m <;> first | rfl | (simp only [State.envMove]; split <;> rfl)
theorem State.envMove_seq (s : State) (m : EnvMove) : (s.envMove m).seq = s.seq := by
  cases m <;> first | rfl | (simp only [State.envMove]; split <;> rfl)
theorem State.envMove_pstep (s : State) (m : EnvMove) : (s.envMove m).pstep = s.pstep := by
  cases m <;> first | rfl | (simp only [State.envMove]; split <;> rfl)
theorem State.envMove_phase (s : State) (m : EnvMove) : (s.envMove m).phase = s.phase := by
  cases m <;> first | rfl | (simp only [State.envMove]; split <;> rfl)
theorem State.envMove_op (s : State) (m : EnvMove) : (s.envMove m).op = s.op := by
  cases m <;> first | rfl | (simp only [State.envMove]; split <;> rfl)
theorem State.envMove_addr (s : State) (m : EnvMove) : (s.envMove m).addr = s.addr := by
  cases m <;> first | rfl | (simp only [State.envMove]; split <;> rfl)
theorem State.envMove_txlen (s : State) (m : EnvMove) : (s.envMove m).txlen = s.txlen := by
  cases m <;> first | rfl | (simp only [State.envMove]; split <;> rfl)
theorem State.envMove_rxcnt (s : State) (m : EnvMove) : (s.envMove m).rxcnt = s.rxcnt := by
  cases m <;> first | rfl | (simp only [State.envMove]; split <;> rfl)
theorem State.envMove_idx (s : State) (m : EnvMove) : (s.envMove m).idx = s.idx := by
  cases m <;> first | rfl | (simp only [State.envMove]; split <;> rfl)
theorem State.envMove_rspData (s : State) (m : EnvMove) : (s.envMove m).rspData = s.rspData := by
  cases m <;> first | rfl | (simp only [State.envMove]; split <;> rfl)
theorem State.envMove_inited (s : State) (m : EnvMove) : (s.envMove m).inited = s.inited := by
  cases m <;> first | rfl | (simp only [State.envMove]; split <;> rfl)
theorem State.envMove_out (s : State) (m : EnvMove) : (s.envMove m).out = s.out := by
  cases m <;> first | rfl | (simp only [State.envMove]; split <;> rfl)
theorem State.envMove_trace (s : State) (m : EnvMove) : (s.envMove m).trace = s.trace := by
  cases m <;> first | rfl | (simp only [State.envMove]; split <;> rfl)
theorem State.envMove_calls (s : State) (m : EnvMove) : (s.envMove m).calls = s.calls := by
  cases m <;> first | rfl | (simp only [State.envMove]; split <;> rfl)
theorem State.envMove_freeCtr (s : State) (m : EnvMove) : (s.envMove m).freeCtr = s.freeCtr := by
  cases m <;> first | rfl | (simp only [State.envMove]; split <;> rfl)

section
variable (s : State)

@[simp] theorem State.envStep_params : s.envStep.params = s.params :=
  State.envStep_keeps State.params State.envMove_params (fun _ _ => rfl) s
@[simp] theorem State.envStep_seq : s.envStep.seq = s.seq :=
  State.envStep_keeps State.seq State.envMove_seq (fun _ _ => rfl) s
@[simp] theorem State.envStep_pstep : s.envStep.pstep = s.pstep :=
  State.envStep_keeps State.pstep State.envMove_pstep (fun _ _ => rfl) s
@[simp] theorem State.envStep_phase : s.envStep.phase = s.phase :=
  State.envStep_keeps State.phase State.envMove_phase (fun _ _ => rfl) s
@[simp] theorem State.envStep_op : s.envStep.op = s.op :=
  State.envStep_keeps State.op State.envMove_op (fun _ _ => rfl) s
@[simp] theorem State.envStep_addr : s.envStep.addr = s.addr :=
  State.envStep_keeps State.addr State.envMove_addr (fun _ _ => rfl) s
@[simp] theorem State.envStep_txlen : s.envStep.txlen = s.txlen :=
  State.envStep_keeps State.txlen State.envMove_txlen (fun _ _ => rfl) s
@[simp] theorem State.envStep_rxcnt : s.envStep.rxcnt = s.rxcnt :=
  State.envStep_keeps State.rxcnt State.envMove_rxcnt (fun _ _ => rfl) s
@[simp] theorem State.envStep_idx : s.envStep.idx = s.idx :=
  State.envStep_keeps State.idx State.envMove_idx (fun _ _ => rfl) s
@[simp] theorem State.envStep_rspData : s.envStep.rspData = s.rspData :=
  State.envStep_keeps State.rspData State.envMove_rspData (fun _ _ => rfl) s
@[simp] theorem State.envStep_inited : s.envStep.inited = s.inited :=
  State.envStep_keeps State.inited State.envMove_inited (fun _ _ => rfl) s
@[simp] theorem State.envStep_out : s.envStep.out = s.out :=
  State.envStep_keeps State.out State.envMove_out (fun _ _ => rfl) s
@[simp] theorem State.envStep_trace : s.envStep.trace = s.trace :=
  State.envStep_keeps State.trace State.envMove_trace (fun _ _ => rfl) s
@[simp] theorem State.envStep_calls : s.envStep.calls = s.calls :=
  State.envStep_keeps State.calls State.envMove_calls (fun _ _ => rfl) s
@[simp] theorem State.envStep_freeCtr : s.envStep.freeCtr = s.freeCtr :=
  State.envStep_keeps State.freeCtr State.envMove_freeCtr (fun _ _ => rfl) s

@[simp] theorem State.envStep_primitive : s.envStep.primitive = s.primitive := by simp [State.primitive]

end

theorem thenEnvironment_next {r : Result} {t : State} (h : thenEnvironment r = .next t) :
    ∃ u, r = .next u ∧ t = u.envStep := by
  cases r with
  | next u => exact ⟨u, rfl, by simpa [thenEnvironment] using h.symm⟩
  | fault f => exact nomatch f
  | refused e => simp [thenEnvironment] at h

/-! ### The sequencer -/

/-- The state is no idle state when it names a primitive (R165). -/
theorem State.seq_ne_idle {s : State} {k : Prim} (h : s.primitive = some k) : s.seq ≠ .idle := by
  intro hs; simp [State.primitive, hs] at h

@[simp] theorem phaseAfter_start_eq {p q : Phase} :
    phaseAfter p .start = some q ↔ (p = .idle ∨ p = .data) ∧ q = .address := by
  cases p <;> cases q <;> simp [phaseAfter]

@[simp] theorem phaseAfter_stop_eq {p q : Phase} : phaseAfter p .stop = some q ↔ p = .data ∧ q = .idle := by
  cases p <;> cases q <;> simp [phaseAfter]

@[simp] theorem phaseAfter_write_eq {p q : Phase} :
    phaseAfter p .write = some q ↔ (p = .address ∨ p = .data) ∧ q = .data := by
  cases p <;> cases q <;> simp [phaseAfter]

@[simp] theorem phaseAfter_read_eq {p q : Phase} : phaseAfter p .read = some q ↔ p = .data ∧ q = .data := by
  cases p <;> cases q <;> simp [phaseAfter]

/-- The instruction that the word on the request port decodes to is the sequencer's primitive with its operand. -/
theorem State.requestWord_eq (s : State) :
    s.requestWord.map decodePrim =
      match s.primitive with
      | some .start => some .primStart
      | some .stop => some .primStop
      | some .write => some (.primWrite s.writeOperand)
      | some .read => some (.primRead s.readOperand)
      | none => none := by
  unfold State.requestWord
  rcases s.primitive with _ | k
  · rfl
  · cases k
    · exact congrArg some (decodePrim_start _ _)
    · exact congrArg some (decodePrim_stop _ _)
    · exact congrArg some (decodePrim_write _ _)
    · exact congrArg some (decodePrim_read _ _)

/-! ### The steps of a primitive as records -/

/-- The state after the issue step of Start. -/
def State.afterStart (s : State) : State :=
  { s with
    trace := s.trace ++ [.reqStart], calls := s.calls ++ [.setControlBit .fStart, .setControlBit .fGo]
    pstep := .wait, out := Outputs.request (primWord 0 .nack 0)
    periph := { s.periph with fStart := true, fGo := false, fDone := false, inFlight := some .startCondition } }

/-- The state after the issue step of Stop. -/
def State.afterStop (s : State) : State :=
  { s with
    trace := s.trace ++ [.reqStop], calls := s.calls ++ [.setControlBit .fStop, .setControlBit .fGo]
    phase := .idle, seq := .idle, out := { Outputs.request (primWord 1 .nack 0) with cmdDone := true }
    periph :=
      { s.periph with
        fStop := true, fGo := false, fDone := false
        inFlight := some (if s.periph.fStart then .startCondition else .stopCondition) } }

/-- The bus phase of a byte with this content of the data register (R218). -/
def Periph.bytePhase (p : Periph) (b : Byte) : BusPhase :=
  if p.fStart then .startCondition else if p.fStop then .stopCondition
  else if p.tracking = .receiving then .receive else .transmit b

/-- The state after the issue step of WriteByte. -/
def State.afterWrite (s : State) (d : Byte) : State :=
  { s with
    trace := s.trace ++ [.reqWrite d], calls := s.calls ++ [.writeDataRegister d, .setControlBit .fGo]
    pstep := .wait, out := Outputs.request (primWord 2 .nack d), freeCtr := s.freeCtr + 1
    periph :=
      { s.periph with regData := d, fGo := false, fDone := false, inFlight := some (s.periph.bytePhase d) } }

/-- The state after the issue step of ReadByte. -/
def State.afterRead (s : State) (k : Ack) : State :=
  { s with
    trace := s.trace ++ [.reqRead k]
    calls := s.calls ++
      [if k = .ack then .setControlBit .fAck else .clearControlBit .fAck, .setControlBit .fGo]
    pstep := .wait, out := Outputs.request (primWord 3 k 0)
    periph :=
      { s.periph with
        fAck := k == .ack, fGo := false, fDone := false
        inFlight := some (s.periph.bytePhase s.periph.regData) } }

/-- The state after the completion step of Start or WriteByte. -/
def State.afterDone (s : State) (after : Phase) : State :=
  { s with
    trace := s.trace ++ [.done], calls := s.calls ++ [.waitUntilAsserted .ctrl .fDone]
    seq := s.nextSeq, idx := s.nextIdx, phase := after, pstep := .issue
    out := { Outputs.quiet with cmdDone := s.seq == .prim } }

/-- The state after the completion step of ReadByte in SEQ_RX. -/
def State.afterReceive (s : State) : State :=
  { s with
    trace := s.trace ++ [.doneRead s.periph.regData]
    calls := s.calls ++ [.waitUntilAsserted .ctrl .fDone, .readDataRegister s.periph.regData]
    seq := s.nextSeq, idx := s.nextIdx, phase := .data, pstep := .issue
    rx := Memory.write s.rx s.idx.toNat s.periph.regData
    out := { Outputs.quiet with rxWe := true, rxIdx := s.idx, rxData := s.periph.regData } }

/-- The state after the completion step of a host-issued ReadByte. -/
def State.afterRespond (s : State) : State :=
  { s with
    trace := s.trace ++ [.doneRead s.periph.regData]
    calls := s.calls ++ [.waitUntilAsserted .ctrl .fDone, .readDataRegister s.periph.regData]
    seq := .idle, phase := .data, pstep := .issue, rspData := s.periph.regData
    out := { Outputs.quiet with cmdDone := true } }

theorem Periph.described_eq (p : Periph) : p.described = p.bytePhase p.regData := by
  unfold Periph.described Periph.bytePhase
  split_ifs <;> simp_all
  cases h : p.tracking <;> simp_all

/-- PRIM_START at its issue step. -/
theorem execPrimStart_issue {s : State} (hr : s.rst = false) (hk : s.primitive = some .start)
    (hs : s.pstep = .issue) (hp : s.phase = .idle ∨ s.phase = .data)
    (hz : s.periph.inFlight ≠ some .stopCondition ∨ s.params.stopThenStartOk = true) :
    exec .primStart s = .next s.afterStart := by
  have hph : phaseAfter s.phase .start = some .address := by simp [hp]
  have hz' : (decide (s.periph.inFlight = some .stopCondition) && !s.params.stopThenStartOk) = false := by
    rcases hz with h | h <;> simp [h]
  simp only [exec, execPrimStart, onRequestPort, hr, hk, hs, hph, hz', State.afterStart]
  simp [hr, hs, State.emit, State.setControlBit, Periph.setControlBit, Periph.trigger, Periph.described]

/-- PRIM_STOP at its issue step. -/
theorem execPrimStop_issue {s : State} (hr : s.rst = false) (hk : s.primitive = some .stop)
    (hs : s.pstep = .issue) (hp : s.phase = .data) : exec .primStop s = .next s.afterStop := by
  have hph : phaseAfter s.phase .stop = some .idle := by simp [hp]
  simp only [exec, execPrimStop, onRequestPort, hr, hk, hs, hph, State.afterStop]
  simp [hr, hs, State.emit, State.setControlBit, Periph.setControlBit, Periph.trigger, Periph.described]

/-- PRIM_WRITE at its issue step. -/
theorem execPrimWrite_issue {s : State} (d : Byte) (hr : s.rst = false) (hk : s.primitive = some .write)
    (hs : s.pstep = .issue) (hp : s.phase = .address ∨ s.phase = .data) :
    exec (.primWrite d) s = .next (s.afterWrite d) := by
  have hph : phaseAfter s.phase .write = some .data := by simp [hp]
  simp only [exec, execPrimWrite, onRequestPort, hr, hk, hs, hph, State.afterWrite]
  simp [hr, hs, State.emit, State.setControlBit, State.writeDataRegister, Periph.setControlBit, Periph.trigger,
    Periph.described_eq, Periph.bytePhase]

/-- PRIM_READ at its issue step. -/
theorem execPrimRead_issue {s : State} (k : Ack) (hr : s.rst = false) (hk : s.primitive = some .read)
    (hs : s.pstep = .issue) (hp : s.phase = .data) : exec (.primRead k) s = .next (s.afterRead k) := by
  have hph : phaseAfter s.phase .read = some .data := by simp [hp]
  simp only [exec, execPrimRead, onRequestPort, hr, hk, hs, hph, State.afterRead]
  cases k <;>
  simp [hr, hs, State.emit, State.setControlBit, State.clearControlBit, State.configureAck, Periph.setControlBit,
    Periph.clearControlBit, Periph.trigger, Periph.described_eq, Periph.bytePhase]

theorem State.nextSeq_congr {s t : State} (h₁ : t.seq = s.seq) (h₂ : t.op = s.op) (h₃ : t.txlen = s.txlen)
    (h₄ : t.rxcnt = s.rxcnt) (h₅ : t.idx = s.idx) : t.nextSeq = s.nextSeq := by
  simp only [State.nextSeq, h₁, h₂, h₃, h₄, h₅]

theorem State.nextIdx_congr {s t : State} (h₁ : t.seq = s.seq) (h₅ : t.idx = s.idx) : t.nextIdx = s.nextIdx := by
  simp only [State.nextIdx, h₁, h₅]

theorem completeStart_eq (s : State) (after : Phase) : completeStart s after = .next (s.afterDone after) := rfl

theorem completeWrite_eq (s : State) (after : Phase) : completeWrite s after = .next (s.afterDone after) := rfl

theorem completeRead_rx {s : State} (hs : s.seq = .rx) (hc : s.idx.toNat < s.rxCap) :
    completeRead s .data = .next s.afterReceive := by
  simp only [completeRead, State.storeReceived, State.readDataRegister, State.waitReturned, State.emit, hs, hc,
    if_true, State.advance, State.afterReceive]
  simp [State.nextSeq, State.nextIdx]
  simp [hs, Outputs.quiet]

theorem completeRead_prim {s : State} (hs : s.seq = .prim) : completeRead s .data = .next s.afterRespond := by
  simp only [completeRead, State.storeReceived, State.readDataRegister, State.waitReturned, State.emit, hs,
    State.advance, State.afterRespond]
  simp [State.nextSeq, State.nextIdx]

theorem completeRead_beyond {s : State} (hs : s.seq = .rx) (hc : s.rxCap ≤ s.idx.toNat) (q : Phase) :
    completeRead s q = .refused .receiveBeyondStorage := by
  simp only [completeRead, State.storeReceived, State.readDataRegister, State.waitReturned, State.emit, hs]
  simp [Nat.not_lt.2 hc]

/-- The only states that read are SEQ_RX and SEQ_PRIM (R165, R121). -/
theorem State.seq_of_read {s : State} (h : s.primitive = some .read) :
    s.seq = .rx ∨ (s.seq = .prim ∧ s.op = 11) := by
  cases hs : s.seq <;> simp [State.primitive, hs] at h ⊢
  split_ifs at h with h₁ h₂ h₃ h₄
  · simp at h
  · simp at h
  · simp at h
  · exact h₄

/-- The only states that stop are SEQ_STOP and SEQ_PRIM (R165, R121). -/
theorem State.seq_of_stop {s : State} (h : s.primitive = some .stop) :
    s.seq = .stop ∨ (s.seq = .prim ∧ s.op = 9) := by
  cases hs : s.seq <;> simp [State.primitive, hs] at h ⊢
  split_ifs at h with h₁ h₂ h₃ h₄
  · simp at h
  · exact h₂
  · simp at h
  · simp at h

end Sys2Proof.Machine
end

