-- ==== Sys2Proof/Laws/Step.lean ====
section
/-! SUPPORT. Said once: everything an instruction and a step can do. `CommandStep` lists the acceptances,
`PrimitiveStep` the steps of a primitive, `BlockStep` all the steps of the block; `step_cases` says that a step
which gives a next state is one of them, followed by the moves of the host and the peripheral. -/

namespace Sys2Proof.Machine

/-- The state after INIT (R201). -/
def State.afterInit (s : State) : State :=
  { s with
    cmdPort := none, inited := true, out := { Outputs.quiet with initReq := true, cmdDone := true }
    periph := { s.periph with prescale := Config.prescaleCfg, regRate := Config.rateDiv, fEn := true }
    calls := s.calls ++ [.setRateDivisor Config.rateDiv, .setControlBit .fEn] }

/-- The state after the acceptance of a transaction (R161). -/
def State.afterAccept (s : State) (o : Opcode) (a : SlaveAddr) (txl rxc : Count) : State :=
  { s with
    cmdPort := none, op := o, addr := a, txlen := txl, rxcnt := rxc
    seq := .start, pstep := .issue, out := Outputs.quiet }

/-- The state after the acceptance of a host-issued primitive (R121). -/
def State.afterAcceptPrim (s : State) (o : Opcode) (rxc : Count) : State :=
  { s with cmdPort := none, op := o, rxcnt := rxc, seq := .prim, pstep := .issue, out := Outputs.quiet }

/-- The opcode and the primitive of a host form, with the operand in `rxc` (R82, R121). -/
inductive HostForm : Instr → Opcode → Prim → Count → Prop where
  | start : HostForm .start 8 .start 0
  | stop : HostForm .stop 9 .stop 0
  | writeByte (d : Byte) : HostForm (.writeByte d) 10 .write d
  | readByte (k : Ack) : HostForm (.readByte k) 11 .read (ackByte k)

/-- The opcode and the latched fields of a transaction command (R82, R161). -/
inductive TransactionForm : Instr → Opcode → SlaveAddr → Count → Count → Prop where
  | writeBurst (a n) : TransactionForm (.writeBurst a n) 2 a n 0
  | readBurst (a c) : TransactionForm (.readBurst a c) 3 a 0 c
  | writeThenRead (a m r) : TransactionForm (.writeThenRead a m r) 4 a m r

/-- The acceptances: which command, under which guard, to which state. -/
inductive CommandStep (s : State) : Instr → State → Prop where
  | init (hp : s.phase = .idle) : CommandStep s .init s.afterInit
  | transaction {i o a txl rxc} (hi : TransactionForm i o a txl rxc) (hn : s.inited = true) (hp : s.phase = .idle) :
      CommandStep s i (s.afterAccept o a txl rxc)
  | hostPrimitive {i o k rxc q} (hi : HostForm i o k rxc) (hh : s.params.hostPrimitives = true)
      (hn : s.inited = true) (hp : phaseAfter s.phase k = some q) : CommandStep s i (s.afterAcceptPrim o rxc)

/-- The acceptance of INIT (R201). -/
theorem execInit_accept {s : State} (hr : s.rst = false) (hs : s.seq = .idle) (hp : s.phase = .idle) :
    exec .init s = .next s.afterInit := by
  simp only [exec, execInit, onCommandPort, hr, hs, hp]
  simp [State.configurePeripheral, State.setRateDivisor, State.setControlBit, Periph.setControlBit,
    State.afterInit, hr, hs, hp]

/-- The acceptance of a transaction (R161). -/
theorem acceptTransaction_accept {s : State} (row : CmdRow) (a : SlaveAddr) (txl rxc : Count)
    (hr : s.rst = false) (hs : s.seq = .idle) (hn : s.inited = true) (hp : s.phase = .idle) :
    acceptTransaction row a txl rxc s = .next (s.afterAccept row.opcode a txl rxc) := by
  simp [acceptTransaction, onCommandPort, State.afterAccept, hr, hs, hn, hp]

/-- A transaction is accepted only after `INIT` and with no frame open (R205, R122). -/
theorem acceptTransaction_next {s t : State} {row : CmdRow} {a : SlaveAddr} {txl rxc : Count}
    (hr : s.rst = false) (hs : s.seq = .idle) (h : acceptTransaction row a txl rxc s = .next t) :
    s.inited = true ∧ s.phase = .idle ∧ t = s.afterAccept row.opcode a txl rxc := by
  by_cases hn : s.inited = true
  · by_cases hp : s.phase = .idle
    · rw [acceptTransaction_accept row a txl rxc hr hs hn hp] at h
      exact ⟨hn, hp, (Host.Outcome.next.inj h).symm⟩
    · simp [acceptTransaction, onCommandPort, hr, hs, hn, hp] at h
  · simp [acceptTransaction, onCommandPort, hr, hs, hn] at h

/-- The acceptance of a host-issued primitive (R121). -/
theorem acceptHostPrimitive_accept {s : State} (row : CmdRow) {k : Prim} (rxc : Byte) {q : Phase}
    (hr : s.rst = false) (hs : s.seq = .idle) (hh : s.params.hostPrimitives = true) (hn : s.inited = true)
    (hp : phaseAfter s.phase k = some q) :
    acceptHostPrimitive row k rxc s = .next (s.afterAcceptPrim row.opcode rxc) := by
  simp [acceptHostPrimitive, onCommandPort, State.afterAcceptPrim, hr, hs, hh, hn, hp]

/-- A host-issued primitive is accepted only in a build that has it, after `INIT`, in a legal phase (R121). -/
theorem acceptHostPrimitive_next {s t : State} {row : CmdRow} {k : Prim} {rxc : Byte}
    (hr : s.rst = false) (hs : s.seq = .idle) (h : acceptHostPrimitive row k rxc s = .next t) :
    s.params.hostPrimitives = true ∧ s.inited = true ∧ (∃ q, phaseAfter s.phase k = some q) ∧
      t = s.afterAcceptPrim row.opcode rxc := by
  by_cases hh : s.params.hostPrimitives = true
  · by_cases hn : s.inited = true
    · cases hp : phaseAfter s.phase k with
      | none => simp [acceptHostPrimitive, onCommandPort, hr, hs, hh, hn, hp] at h
      | some q =>
        rw [acceptHostPrimitive_accept row rxc hr hs hh hn hp] at h
        exact ⟨hh, hn, ⟨q, rfl⟩, (Host.Outcome.next.inj h).symm⟩
    · simp [acceptHostPrimitive, onCommandPort, hr, hs, hh, hn] at h
  · simp [acceptHostPrimitive, onCommandPort, hr, hs, hh] at h

/-- A command that gives a next state in an idle block out of reset was accepted. -/
theorem exec_command_next {s t : State} {i : Instr} (hr : s.rst = false) (hs : s.seq = .idle)
    (hc : i.isCommand = true) (h : exec i s = .next t) : CommandStep s i t := by
  cases i with
  | init =>
    by_cases hp : s.phase = .idle
    · rw [execInit_accept hr hs hp] at h
      exact (Host.Outcome.next.inj h) ▸ .init hp
    · simp [exec, execInit, onCommandPort, hr, hs, hp] at h
  | writeBurst a n =>
    obtain ⟨hn, hp, rfl⟩ := acceptTransaction_next hr hs h
    exact .transaction (.writeBurst a n) hn hp
  | readBurst a c =>
    obtain ⟨hn, hp, rfl⟩ := acceptTransaction_next hr hs h
    exact .transaction (.readBurst a c) hn hp
  | writeThenRead a m r =>
    obtain ⟨hn, hp, rfl⟩ := acceptTransaction_next hr hs h
    exact .transaction (.writeThenRead a m r) hn hp
  | start =>
    obtain ⟨hh, hn, ⟨q, hp⟩, rfl⟩ := acceptHostPrimitive_next hr hs h
    exact .hostPrimitive .start hh hn hp
  | stop =>
    obtain ⟨hh, hn, ⟨q, hp⟩, rfl⟩ := acceptHostPrimitive_next hr hs h
    exact .hostPrimitive .stop hh hn hp
  | writeByte d =>
    obtain ⟨hh, hn, ⟨q, hp⟩, rfl⟩ := acceptHostPrimitive_next hr hs h
    exact .hostPrimitive (.writeByte d) hh hn hp
  | readByte k =>
    obtain ⟨hh, hn, ⟨q, hp⟩, rfl⟩ := acceptHostPrimitive_next hr hs h
    exact .hostPrimitive (.readByte k) hh hn hp
  | primStart => simp [Instr.isCommand] at hc
  | primStop => simp [Instr.isCommand] at hc
  | primWrite d => simp [Instr.isCommand] at hc
  | primRead k => simp [Instr.isCommand] at hc

/-- A command presented to a busy block changes nothing (R161). -/
theorem exec_command_busy {s : State} {i : Instr} (hr : s.rst = false) (hs : s.seq ≠ .idle)
    (hc : i.isCommand = true) : exec i s = .next s := by
  cases i with
  | init => simp [exec, execInit, onCommandPort, hr, hs]
  | writeBurst a n => simp [exec, execWriteBurst, acceptTransaction, onCommandPort, hr, hs]
  | readBurst a c => simp [exec, execReadBurst, acceptTransaction, onCommandPort, hr, hs]
  | writeThenRead a m r => simp [exec, execWriteThenRead, acceptTransaction, onCommandPort, hr, hs]
  | start => simp [exec, execStart, acceptHostPrimitive, onCommandPort, hr, hs]
  | stop => simp [exec, execStop, acceptHostPrimitive, onCommandPort, hr, hs]
  | writeByte d => simp [exec, execWriteByte, acceptHostPrimitive, onCommandPort, hr, hs]
  | readByte k => simp [exec, execReadByte, acceptHostPrimitive, onCommandPort, hr, hs]
  | primStart => simp [Instr.isCommand] at hc
  | primStop => simp [Instr.isCommand] at hc
  | primWrite d => simp [Instr.isCommand] at hc
  | primRead k => simp [Instr.isCommand] at hc

/-- With `rst` = 1 every instruction is overridden by the reset step (R214 a). -/
theorem exec_in_reset {s : State} (hr : s.rst = true) (i : Instr) : exec i s = .next s.resetStep := by
  cases i <;> simp [exec, execInit, execWriteBurst, execReadBurst, execWriteThenRead, acceptTransaction, execStart,
    execStop, execWriteByte, execReadByte, acceptHostPrimitive, onCommandPort, execPrimStart, execPrimStop,
    execPrimWrite, execPrimRead, onRequestPort, hr]

/-- The rest of a blocking primitive: hold and completion. -/
inductive WaitStep (s : State) : Prim → State → Prop where
  | hold {k} (hk : k ≠ .stop) (hd : s.periph.fDone = false) : WaitStep s k s.hold
  | startDone (hd : s.periph.fDone = true) (hp : s.phase = .idle ∨ s.phase = .data) :
      WaitStep s .start (s.afterDone .address)
  | writeDone (hd : s.periph.fDone = true) (hp : s.phase = .address ∨ s.phase = .data) :
      WaitStep s .write (s.afterDone .data)
  | received (hd : s.periph.fDone = true) (hp : s.phase = .data) (hs : s.seq = .rx) (hc : s.idx.toNat < s.rxCap) :
      WaitStep s .read s.afterReceive
  | responded (hd : s.periph.fDone = true) (hp : s.phase = .data) (hs : s.seq = .prim) :
      WaitStep s .read s.afterRespond

/-- What `resume` answers when it gives a next state. -/
theorem resume_next {s t : State} {k : Prim} (hk : s.primitive = some k) (h : resume k s = .next t) :
    WaitStep s k t := by
  cases k with
  | stop => simp [resume] at h
  | start =>
    cases hd : s.periph.fDone <;> simp [resume, hd] at h
    · exact h ▸ .hold (by decide) hd
    · cases hp : phaseAfter s.phase .start with
      | none => simp [hp] at h
      | some q =>
        obtain ⟨hq, rfl⟩ := phaseAfter_start_eq.1 hp
        have ht : s.afterDone .address = t := by simpa [hp, completeStart_eq] using h
        exact ht ▸ .startDone hd hq
  | write =>
    cases hd : s.periph.fDone <;> simp [resume, hd] at h
    · exact h ▸ .hold (by decide) hd
    · cases hp : phaseAfter s.phase .write with
      | none => simp [hp] at h
      | some q =>
        obtain ⟨hq, rfl⟩ := phaseAfter_write_eq.1 hp
        have ht : s.afterDone .data = t := by simpa [hp, completeWrite_eq] using h
        exact ht ▸ .writeDone hd hq
  | read =>
    cases hd : s.periph.fDone <;> simp [resume, hd] at h
    · exact h ▸ .hold (by decide) hd
    · cases hp : phaseAfter s.phase .read with
      | none => simp [hp] at h
      | some q =>
        obtain ⟨hq, rfl⟩ := phaseAfter_read_eq.1 hp
        rcases State.seq_of_read hk with hs | ⟨hs, -⟩
        · by_cases hc : s.idx.toNat < s.rxCap
          · have ht : s.afterReceive = t := by simpa [hp, completeRead_rx hs hc] using h
            exact ht ▸ .received hd hq hs hc
          · simp [hp, completeRead_beyond hs (Nat.not_lt.1 hc)] at h
        · have ht : s.afterRespond = t := by simpa [hp, completeRead_prim hs] using h
          exact ht ▸ .responded hd hq hs

/-- The step of a primitive at P_ISSUE. -/
inductive IssueStep (s : State) : Instr → State → Prop where
  | start (hk : s.primitive = some .start) (hp : s.phase = .idle ∨ s.phase = .data)
      (hz : s.periph.inFlight ≠ some .stopCondition ∨ s.params.stopThenStartOk = true) :
      IssueStep s .primStart s.afterStart
  | stop (hk : s.primitive = some .stop) (hp : s.phase = .data) : IssueStep s .primStop s.afterStop
  | write (d : Byte) (hk : s.primitive = some .write) (hp : s.phase = .address ∨ s.phase = .data) :
      IssueStep s (.primWrite d) (s.afterWrite d)
  | read (k : Ack) (hk : s.primitive = some .read) (hp : s.phase = .data) :
      IssueStep s (.primRead k) (s.afterRead k)

/-- A request of the sequencer that gives a next state at P_ISSUE was issued. -/
theorem exec_issue_next {s t : State} {i : Instr} (hr : s.rst = false) (hs : s.pstep = .issue)
    (hc : i.isCommand = false) (h : exec i s = .next t) : IssueStep s i t := by
  cases i with
  | primStart =>
    by_cases hk : s.primitive = some .start
    · by_cases hp : s.phase = .idle ∨ s.phase = .data
      · by_cases hz : s.periph.inFlight ≠ some .stopCondition ∨ s.params.stopThenStartOk = true
        · rw [execPrimStart_issue hr hk hs hp hz] at h
          exact (Host.Outcome.next.inj h) ▸ .start hk hp hz
        · obtain ⟨h₁, h₂⟩ := not_or.1 hz
          have hph : phaseAfter s.phase .start = some .address := by simp [hp]
          simp [exec, execPrimStart, onRequestPort, hr, hk, hs, hph, not_not.1 h₁, h₂] at h
      · have hph : phaseAfter s.phase .start = none := by
          cases hq : phaseAfter s.phase .start with
          | none => rfl
          | some q => exact absurd (phaseAfter_start_eq.1 hq).1 hp
        simp [exec, execPrimStart, onRequestPort, hr, hk, hs, hph] at h
    · simp [exec, execPrimStart, onRequestPort, hr, hk] at h
  | primStop =>
    by_cases hk : s.primitive = some .stop
    · by_cases hp : s.phase = .data
      · rw [execPrimStop_issue hr hk hs hp] at h
        exact (Host.Outcome.next.inj h) ▸ .stop hk hp
      · have hph : phaseAfter s.phase .stop = none := by
          cases hq : phaseAfter s.phase .stop with
          | none => rfl
          | some q => exact absurd (phaseAfter_stop_eq.1 hq).1 hp
        simp [exec, execPrimStop, onRequestPort, hr, hk, hs, hph] at h
    · simp [exec, execPrimStop, onRequestPort, hr, hk] at h
  | primWrite d =>
    by_cases hk : s.primitive = some .write
    · by_cases hp : s.phase = .address ∨ s.phase = .data
      · rw [execPrimWrite_issue d hr hk hs hp] at h
        exact (Host.Outcome.next.inj h) ▸ .write d hk hp
      · have hph : phaseAfter s.phase .write = none := by
          cases hq : phaseAfter s.phase .write with
          | none => rfl
          | some q => exact absurd (phaseAfter_write_eq.1 hq).1 hp
        simp [exec, execPrimWrite, onRequestPort, hr, hk, hs, hph] at h
    · simp [exec, execPrimWrite, onRequestPort, hr, hk] at h
  | primRead k =>
    by_cases hk : s.primitive = some .read
    · by_cases hp : s.phase = .data
      · rw [execPrimRead_issue k hr hk hs hp] at h
        exact (Host.Outcome.next.inj h) ▸ .read k hk hp
      · have hph : phaseAfter s.phase .read = none := by
          cases hq : phaseAfter s.phase .read with
          | none => rfl
          | some q => exact absurd (phaseAfter_read_eq.1 hq).1 hp
        simp [exec, execPrimRead, onRequestPort, hr, hk, hs, hph] at h
    · simp [exec, execPrimRead, onRequestPort, hr, hk] at h
  | init => simp [Instr.isCommand] at hc
  | writeBurst a n => simp [Instr.isCommand] at hc
  | readBurst a c => simp [Instr.isCommand] at hc
  | writeThenRead a m r => simp [Instr.isCommand] at hc
  | start => simp [Instr.isCommand] at hc
  | stop => simp [Instr.isCommand] at hc
  | writeByte d => simp [Instr.isCommand] at hc
  | readByte k => simp [Instr.isCommand] at hc

/-- The primitive that an instruction of format P asks for. -/
def primKind : Instr → Option Prim
  | .primStart => some .start
  | .primStop => some .stop
  | .primWrite _ => some .write
  | .primRead _ => some .read
  | .init => none
  | .writeBurst _ _ => none
  | .readBurst _ _ => none
  | .writeThenRead _ _ _ => none
  | .start => none
  | .stop => none
  | .writeByte _ => none
  | .readByte _ => none

/-- At P_WAIT a primitive is the rest of what is in flight. -/
theorem exec_wait {s : State} {i : Instr} {k : Prim} (hr : s.rst = false) (hs : s.pstep = .wait)
    (hi : primKind i = some k) (hk : s.primitive = some k) : exec i s = resume k s := by
  cases i <;> simp [primKind] at hi <;> subst hi <;>
    simp [exec, execPrimStart, execPrimStop, execPrimWrite, execPrimRead, onRequestPort, hr, hs, hk]

/-- A primitive that gives a next state is the one `seq` names (R120). -/
theorem exec_primitive_named {s t : State} {i : Instr} {k : Prim} (hr : s.rst = false)
    (hi : primKind i = some k) (h : exec i s = .next t) : s.primitive = some k := by
  by_contra hk
  cases i <;> simp [primKind] at hi <;> subst hi <;>
    simp [exec, execPrimStart, execPrimStop, execPrimWrite, execPrimRead, onRequestPort, hr, hk] at h

/-- All the steps of the block. -/
inductive BlockStep (s : State) : State → Prop where
  | reset (hr : s.rst = true) : BlockStep s s.resetStep
  | idle (hr : s.rst = false) (hs : s.seq = .idle) (hw : s.cmdPort = none) : BlockStep s s.idleStep
  | command {w i u} (hr : s.rst = false) (hs : s.seq = .idle) (hw : s.cmdPort = some w)
      (hd : decodeCmd s.params.hostPrimitives w = .legal i) (h : CommandStep s i u) : BlockStep s u
  | issue {i u} (hr : s.rst = false) (hs : s.pstep = .issue) (h : IssueStep s i u)
      (hw : s.requestWord.map decodePrim = some i) : BlockStep s u
  | wait {k u} (hr : s.rst = false) (hs : s.pstep = .wait) (hk : s.primitive = some k) (h : WaitStep s k u) :
      BlockStep s u

/-- No step of the block touches the moves to come. -/
theorem BlockStep.env_same {s u : State} (h : BlockStep s u) : u.env = s.env := by
  cases h with
  | reset => rfl
  | idle => rfl
  | command _ _ _ _ h => cases h <;> rfl
  | issue _ _ h _ => cases h <;> rfl
  | wait _ _ _ h => cases h <;> rfl

/-- With no move to come the other agents do nothing. -/
theorem State.envStep_nil {s : State} (h : s.env = []) : s.envStep = s := by simp [State.envStep, h]

theorem CmdRow.instr_isCommand (r : CmdRow) (w : CmdWord) : (r.instr w).isCommand = true := by
  cases r <;> rfl

/-- What a command word decodes to is a command. -/
theorem isCommand_of_decodeCmd {hp : Bool} {w : CmdWord} {i : Instr} (h : decodeCmd hp w = .legal i) :
    i.isCommand = true := by
  unfold decodeCmd at h
  split at h
  · split at h
    · simp at h
    · rw [← Decoded.legal.inj h]; exact CmdRow.instr_isCommand _ _
  · split at h <;> simp at h

theorem decodePrim_not_command (w : PrimWord) : (decodePrim w).isCommand = false := by
  unfold decodePrim
  split_ifs <;> rfl

/-- A step that gives a next state is one of the steps of the block, then the moves of the other agents. -/
theorem step_cases {s t : State} (h : step s = .next t) : ∃ u, t = u.envStep ∧ BlockStep s u := by
  unfold step fetch at h
  by_cases hr : s.rst = true
  · simp only [hr, if_true] at h
    exact ⟨s.resetStep, (Host.Outcome.next.inj h).symm, .reset hr⟩
  · have hr : s.rst = false := by simpa using hr
    simp only [hr, Bool.false_eq_true, if_false] at h
    by_cases hs : s.seq = .idle
    · simp only [hs, if_true] at h
      cases hw : s.cmdPort with
      | none =>
        simp only [hw] at h
        exact ⟨s.idleStep, (Host.Outcome.next.inj h).symm, .idle hr hs hw⟩
      | some w =>
        simp only [hw] at h
        cases hd : decodeCmd s.params.hostPrimitives w with
        | illegal why => simp [hd, thenEnvironment] at h
        | legal i =>
          simp only [hd] at h
          obtain ⟨u, hu, rfl⟩ := thenEnvironment_next h
          exact ⟨u, rfl, .command hr hs hw hd (exec_command_next hr hs (isCommand_of_decodeCmd hd) hu)⟩
    · simp only [hs, if_false] at h
      cases hp : s.pstep with
      | issue =>
        simp only [hp] at h
        cases hw : s.requestWord with
        | none => simp [hw, thenEnvironment] at h
        | some w =>
          simp only [hw] at h
          obtain ⟨u, hu, rfl⟩ := thenEnvironment_next h
          exact ⟨u, rfl, .issue hr hp (exec_issue_next hr hp (decodePrim_not_command w) hu) (by simp [hw])⟩
      | wait =>
        simp only [hp] at h
        obtain ⟨u, hu, rfl⟩ := thenEnvironment_next h
        unfold resumeInFlight at hu
        cases hk : s.primitive with
        | none => simp [hk] at hu
        | some k =>
          simp only [hk] at hu
          exact ⟨u, rfl, .wait hr hp hk (resume_next hk hu)⟩

end Sys2Proof.Machine
end

