-- ==== Sys2Proof/Laws/Runs.lean ====
section
/-! SUPPORT. What a run does while the peripheral answers one primitive, in one lemma each: the issue step, the
holds and the completion step of Start, WriteByte and ReadByte. And that the sequencer names which primitive. -/

namespace Sys2Proof.Machine

/-! ### Which state names which primitive -/

/-- The only states that start are SEQ_START, SEQ_RSTART and SEQ_PRIM (R165, R121). -/
theorem State.seq_of_start {s : State} (h : s.primitive = some .start) :
    s.seq = .start ∨ s.seq = .rstart ∨ s.seq = .prim := by
  cases hs : s.seq <;> simp [State.primitive, hs] at h ⊢

/-- The only states that write are SEQ_ADDR_W, SEQ_ADDR_R, SEQ_TX and SEQ_PRIM (R165, R121). -/
theorem State.seq_of_write {s : State} (h : s.primitive = some .write) :
    s.seq = .addrW ∨ s.seq = .addrR ∨ s.seq = .tx ∨ s.seq = .prim := by
  cases hs : s.seq <;> simp [State.primitive, hs] at h ⊢

/-- A count is above 0 when it is not 0 (the test of R166 before a loop). -/
theorem Count.zero_lt_iff (x : Count) : 0#8 < x ↔ x ≠ 0#8 := by
  rw [BitVec.lt_def, ← BitVec.toNat_inj.ne]
  exact Nat.pos_iff_ne_zero

/-! ### Runs -/

/-- The result of a run that goes on from a result. -/
def andRun (r : Result) (n : Nat) : Result :=
  match r with
  | .next t => core.run n t
  | .fault f => .fault f
  | .refused e => .refused e

theorem run_succ (n : Nat) (s : State) : core.run (n + 1) s = andRun (step s) n := by
  have h : core.step s = step s := rfl
  simp only [Host.Core.run, andRun, h]
  cases step s <;> rfl

theorem run_one (s : State) : core.run 1 s = step s := by
  rw [run_succ]; cases step s <;> rfl

/-- A run in two parts. -/
theorem run_add (m n : Nat) (s : State) : core.run (m + n) s = andRun (core.run m s) n := by
  induction m generalizing s with
  | zero => rw [Nat.zero_add]; rfl
  | succ m ih =>
    rw [Nat.add_right_comm, run_succ, run_succ]
    cases step s with
    | next t => exact ih t
    | fault f => rfl
    | refused e => rfl

/-- The second part of a run after a first part that gives a next state. -/
theorem run_after {m n : Nat} {s t : State} (h : core.run m s = .next t) : core.run (m + n) s = core.run n t := by
  rw [run_add, h]; rfl

/-- At P_WAIT a step is the rest of the primitive in flight, then the moves of the other agents. -/
theorem step_wait {s : State} {k : Prim} (hr : s.rst = false) (hs : s.pstep = .wait) (hk : s.primitive = some k) :
    step s = thenEnvironment (resume k s) := by
  have hi := State.seq_ne_idle hk
  simp only [step, fetch, hr, hs, hk, hi, resumeInFlight, Bool.false_eq_true, if_false]

/-- At P_ISSUE a step is the requested primitive, then the moves of the other agents. -/
theorem step_issue {s : State} {i : Instr} (hr : s.rst = false) (hi : s.seq ≠ .idle) (hs : s.pstep = .issue)
    (hw : s.requestWord.map decodePrim = some i) : step s = thenEnvironment (exec i s) := by
  obtain ⟨w, hw', rfl⟩ := Option.map_eq_some_iff.1 hw
  simp only [step, fetch, hr, hs, hi, hw', Bool.false_eq_true, if_false]

/-- A hold. -/
theorem step_hold {s : State} {k : Prim} (hr : s.rst = false) (hs : s.pstep = .wait) (hk : s.primitive = some k)
    (hne : k ≠ .stop) (hd : s.periph.fDone = false) : step s = .next s.hold.envStep := by
  rw [step_wait hr hs hk]
  cases k <;> simp [resume, hd, thenEnvironment] at hne ⊢

/-- The completion step does not look at the pulses of the step before. -/
theorem resume_out {s : State} (o : Outputs) (k : Prim) (hd : s.periph.fDone = true) :
    resume k { s with out := o } = resume k s := by
  cases k <;> simp only [resume, hd] <;> rfl

/-- The holds and the completion of a primitive that the peripheral finishes after `waits` more steps. -/
theorem run_wait {k : Prim} {p : PrimAnswer} {rest : List (List EnvMove)} (hne : k ≠ .stop) (w : Nat) {v : State}
    (hr : v.rst = false) (hs : v.pstep = .wait) (hk : v.primitive = some k) (hd : v.periph.fDone = false)
    (hf : (v.periph.phaseDone p.data p.status p.slaveAck).fDone = true)
    (he : v.env = List.replicate w [] ++ [[.phaseDone p.data p.status p.slaveAck], []] ++ rest) :
    core.run (w + 1) v.envStep = thenEnvironment
      (resume k { v with periph := v.periph.phaseDone p.data p.status p.slaveAck, env := [] :: rest }) := by
  induction w generalizing v with
  | zero =>
    have h : v.envStep =
        { v with periph := v.periph.phaseDone p.data p.status p.slaveAck, env := [] :: rest } := by
      simp [State.envStep, he, State.envMoves, State.envMove]
    rw [run_one, h, step_wait (by exact hr) (by exact hs) (by exact hk)]
  | succ w ih =>
    have h : v.envStep =
        { v with env := List.replicate w [] ++ [[.phaseDone p.data p.status p.slaveAck], []] ++ rest } := by
      simp [State.envStep, he, State.envMoves, List.replicate_succ]
    rw [run_succ, h, step_hold (by exact hr) (by exact hs) (by exact hk) hne (by exact hd)]
    refine (ih (by exact hr) (by exact hs) (by exact hk) (by exact hd) (by exact hf) rfl).trans ?_
    exact congrArg thenEnvironment (resume_out Outputs.quiet k
      (s := { v with periph := v.periph.phaseDone p.data p.status p.slaveAck, env := [] :: rest }) hf)

/-- The run of Start: issue, holds, completion. -/
theorem run_start {s : State} {p : PrimAnswer} {rest : List (List EnvMove)} (hr : s.rst = false)
    (hk : s.primitive = some .start) (hs : s.pstep = .issue) (hp : s.phase = .idle ∨ s.phase = .data)
    (hz : s.periph.inFlight ≠ some .stopCondition ∨ s.params.stopThenStartOk = true)
    (he : s.env = p.slots ++ rest) :
    core.run (p.waits + 2) s = .next
      { { s.afterStart with periph := s.afterStart.periph.phaseDone p.data p.status p.slaveAck }.afterDone .address
          with env := rest } := by
  have hi := State.seq_ne_idle hk
  rw [run_succ, step_issue hr hi hs (by rw [State.requestWord_eq, hk]), execPrimStart_issue hr hk hs hp hz]
  have hrw := run_wait (k := .start) (p := p) (rest := rest) (by decide) p.waits (v := s.afterStart) hr rfl hk rfl
    rfl he
  refine hrw.trans ?_
  have hph : phaseAfter s.phase .start = some .address := by simp [hp]
  have hph' : phaseAfter s.afterStart.phase .start = some .address := hph
  have hd : (s.afterStart.periph.phaseDone p.data p.status p.slaveAck).fDone = true := rfl
  simp only [resume, hd, if_true, hph', completeStart_eq, thenEnvironment]
  rfl

/-- A byte phase, finished, has set the completion flag. -/
theorem phaseDone_bytePhase (q : Periph) (d b : Byte) (st : Nat) (ack : Bool) (h₁ : q.fStart = false)
    (h₂ : q.fStop = false) (hf : q.inFlight = some (q.bytePhase d)) :
    (q.phaseDone b st ack).fDone = true ∧ (q.phaseDone b st ack).regData = b := by
  unfold Periph.bytePhase at hf
  simp only [h₁, h₂, Bool.false_eq_true, if_false] at hf
  split_ifs at hf <;> simp [Periph.phaseDone, hf]

/-- The run of WriteByte: issue, holds, completion. -/
theorem run_write {s : State} {p : PrimAnswer} {rest : List (List EnvMove)} (hr : s.rst = false)
    (hk : s.primitive = some .write) (hs : s.pstep = .issue) (hp : s.phase = .address ∨ s.phase = .data)
    (h₁ : s.periph.fStart = false) (h₂ : s.periph.fStop = false) (he : s.env = p.slots ++ rest) :
    core.run (p.waits + 2) s = .next
      { { s.afterWrite s.writeOperand with
            periph := (s.afterWrite s.writeOperand).periph.phaseDone p.data p.status p.slaveAck }.afterDone .data
          with env := rest } := by
  have hi := State.seq_ne_idle hk
  rw [run_succ, step_issue hr hi hs (by rw [State.requestWord_eq, hk]), execPrimWrite_issue _ hr hk hs hp]
  have hd := (phaseDone_bytePhase (s.afterWrite s.writeOperand).periph s.writeOperand p.data p.status p.slaveAck
    h₁ h₂ rfl).1
  have hrw := run_wait (k := .write) (p := p) (rest := rest) (by decide) p.waits (v := s.afterWrite s.writeOperand)
    hr rfl hk rfl hd he
  refine hrw.trans ?_
  have hph : phaseAfter (s.afterWrite s.writeOperand).phase .write = some .data := by
    simp [State.afterWrite, hp]
  simp only [resume, hd, if_true, hph, completeWrite_eq, thenEnvironment]
  rfl

/-- The run of ReadByte in SEQ_RX: issue, holds, completion. -/
theorem run_read {s : State} {p : PrimAnswer} {rest : List (List EnvMove)} (hr : s.rst = false)
    (hq : s.seq = .rx) (hs : s.pstep = .issue) (hp : s.phase = .data) (hc : s.idx.toNat < s.rxCap)
    (h₁ : s.periph.fStart = false) (h₂ : s.periph.fStop = false) (he : s.env = p.slots ++ rest) :
    core.run (p.waits + 2) s = .next
      { { s.afterRead s.readOperand with
            periph := (s.afterRead s.readOperand).periph.phaseDone p.data p.status p.slaveAck }.afterReceive
          with env := rest } := by
  have hk : s.primitive = some .read := by simp [State.primitive, hq]
  have hi := State.seq_ne_idle hk
  rw [run_succ, step_issue hr hi hs (by rw [State.requestWord_eq, hk]), execPrimRead_issue _ hr hk hs hp]
  have hd := (phaseDone_bytePhase (s.afterRead s.readOperand).periph s.periph.regData p.data p.status p.slaveAck
    h₁ h₂ rfl).1
  have hrw := run_wait (k := .read) (p := p) (rest := rest) (by decide) p.waits (v := s.afterRead s.readOperand)
    hr rfl hk rfl hd he
  refine hrw.trans ?_
  have hph : phaseAfter (s.afterRead s.readOperand).phase .read = some .data := by simp [State.afterRead, hp]
  simp only [resume, hd, if_true, hph, thenEnvironment]
  rw [completeRead_rx (by exact hq) (by exact hc)]
  rfl

/-- The run of a host-issued ReadByte: issue, holds, completion. -/
theorem run_respond {s : State} {p : PrimAnswer} {rest : List (List EnvMove)} (hr : s.rst = false)
    (hk : s.primitive = some .read) (hq : s.seq = .prim) (hs : s.pstep = .issue) (hp : s.phase = .data)
    (h₁ : s.periph.fStart = false) (h₂ : s.periph.fStop = false) (he : s.env = p.slots ++ rest) :
    core.run (p.waits + 2) s = .next
      { { s.afterRead s.readOperand with
            periph := (s.afterRead s.readOperand).periph.phaseDone p.data p.status p.slaveAck }.afterRespond
          with env := rest } := by
  have hi := State.seq_ne_idle hk
  rw [run_succ, step_issue hr hi hs (by rw [State.requestWord_eq, hk]), execPrimRead_issue _ hr hk hs hp]
  have hd := (phaseDone_bytePhase (s.afterRead s.readOperand).periph s.periph.regData p.data p.status p.slaveAck
    h₁ h₂ rfl).1
  have hrw := run_wait (k := .read) (p := p) (rest := rest) (by decide) p.waits (v := s.afterRead s.readOperand)
    hr rfl hk rfl hd he
  refine hrw.trans ?_
  have hph : phaseAfter (s.afterRead s.readOperand).phase .read = some .data := by simp [State.afterRead, hp]
  simp only [resume, hd, if_true, hph, thenEnvironment]
  rw [completeRead_prim (by exact hq)]
  rfl

/-- The step of Stop. -/
theorem step_stop {s : State} {rest : List (List EnvMove)} (hr : s.rst = false) (hk : s.primitive = some .stop)
    (hs : s.pstep = .issue) (hp : s.phase = .data) (he : s.env = [] :: rest) :
    step s = .next { s.afterStop with env := rest } := by
  have hi := State.seq_ne_idle hk
  rw [step_issue hr hi hs (by rw [State.requestWord_eq, hk]), execPrimStop_issue hr hk hs hp]
  simp [thenEnvironment, State.envStep, State.afterStop, he, State.envMoves]

end Sys2Proof.Machine
end

