-- ==== Sys2Proof/Laws/Invariants.lean ====
section
/-! SUPPORT. The invariants of Safety.lean depend on the fields they name and no others, and the moves of the host
and the peripheral keep the discipline of triggers. -/

namespace Sys2Proof.Machine

/-- The invariant of R41 looks at the sequencer, the bus-level state, the index and the two counts only. -/
theorem State.SequencerInvariant.congr {s t : State} (h : s.SequencerInvariant)
    (h1 : t.seq = s.seq) (h2 : t.phase = s.phase) (h3 : t.pstep = s.pstep) (h4 : t.idx = s.idx)
    (h5 : t.txlen = s.txlen) (h6 : t.rxcnt = s.rxcnt) :
    t.SequencerInvariant := by
  obtain ⟨a, b, c, d, e, f, g, i⟩ := h
  constructor <;> simp only [h1, h2, h3, h4, h5, h6] <;> assumption

/-- Coherence looks at the registers of the block only. -/
theorem State.Coherent.congr {s t : State} (h : s.Coherent)
    (h1 : t.seq = s.seq) (h2 : t.phase = s.phase) (h3 : t.pstep = s.pstep) (h4 : t.idx = s.idx)
    (h5 : t.txlen = s.txlen) (h6 : t.rxcnt = s.rxcnt) (h7 : t.op = s.op)
    (h8 : t.inited = s.inited) : t.Coherent := by
  have hp : t.primitive = s.primitive := by simp [State.primitive, h1, h7]
  obtain ⟨a, b, c, d, e, f, g, i, j⟩ := h
  constructor <;> simp only [h1, h2, h3, h4, h5, h6, h8, hp] <;> assumption

/-- The discipline of triggers looks at the sequencer, the bus-level state and the peripheral only. -/
theorem State.TriggerDiscipline.congr {s t : State} (h : s.TriggerDiscipline)
    (h1 : t.seq = s.seq) (h2 : t.phase = s.phase) (h3 : t.pstep = s.pstep) (h4 : t.periph = s.periph) : t.TriggerDiscipline := by
  obtain ⟨a, b, c, d, e, f, g⟩ := h
  constructor <;> simp only [h1, h2, h3, h4] <;> assumption

/-- No move of the host or of the peripheral breaks the discipline of triggers. -/
theorem State.TriggerDiscipline.envStep {s : State} (h : s.TriggerDiscipline) : s.envStep.TriggerDiscipline := by
  refine State.envStep_induct (P := State.TriggerDiscipline) ?_ (fun s l h => h.congr rfl rfl rfl rfl) h
  intro s m h
  cases m with
  | present | withdraw | setRst | passTxView | passRxView | storeTx => exact h.congr rfl rfl rfl rfl
  | storeRx => simp only [State.envMove]; split; exact h.congr rfl rfl rfl rfl; exact h
  | takeRequest =>
    obtain ⟨a, b, c, d, e, f, g⟩ := h
    constructor <;> simp only [State.envMove, Periph.takeRequest, Periph.quietBus] at * <;> try assumption
    · simp
    · simp
    · intro h1 h2; simp [f h1 h2]
    · intro h1 h2; rcases g h1 h2 with h | h
      · exact .inl h
      · exact .inr ⟨h.1, by simp⟩
  | phaseDone data st ack =>
    obtain ⟨a, b, c, d, e, f, g⟩ := h
    cases hf : s.periph.inFlight with
    | none => constructor <;> simp only [State.envMove, Periph.phaseDone, hf] <;> simp_all
    | some ph =>
      cases ph with
      | stopCondition => constructor <;> simp only [State.envMove, Periph.phaseDone, hf] <;> simp_all
      | startCondition =>
        cases hs : s.pstep with
        | issue => have := b hs; simp [Periph.quietBus, hf] at this
        | wait => constructor <;> simp [State.envMove, Periph.phaseDone, hf, hs]; intro h; simp [hs] at a; exact a h
      | transmit x =>
        cases hs : s.pstep with
        | issue => have := b hs; simp [Periph.quietBus, hf] at this
        | wait =>
          have hd : s.periph.fDone = false := by
            cases hd : s.periph.fDone with
            | false => rfl
            | true => have := f hs hd; simp [hf] at this
          have := g hs hd
          simp [hf] at this
          constructor <;> simp [State.envMove, Periph.phaseDone, hf, hs, this]; intro h; simp [hs] at a; exact a h
      | receive =>
        cases hs : s.pstep with
        | issue => have := b hs; simp [Periph.quietBus, hf] at this
        | wait =>
          have hd : s.periph.fDone = false := by
            cases hd : s.periph.fDone with
            | false => rfl
            | true => have := f hs hd; simp [hf] at this
          have := g hs hd
          simp [hf] at this
          constructor <;> simp [State.envMove, Periph.phaseDone, hf, hs, this]; intro h; simp [hs] at a; exact a h
  | stopDriven dn st =>
    obtain ⟨a, b, c, d, e, f, g⟩ := h
    cases hf : s.periph.inFlight with
    | none => constructor <;> simp only [State.envMove, Periph.stopDriven, hf] <;> simp_all
    | some ph =>
      cases ph with
      | startCondition | transmit | receive =>
        constructor <;> simp only [State.envMove, Periph.stopDriven, hf] <;> simp_all
      | stopCondition =>
        cases hs : s.pstep with
        | issue => constructor <;> simp [State.envMove, Periph.stopDriven, hf, hs, Periph.quietBus, d hs]
        | wait =>
          cases hd : s.periph.fDone with
          | false => have := g hs hd; simp [hf] at this
          | true => have := f hs hd; simp [hf] at this

end Sys2Proof.Machine
end

