-- ==== Sys2Proof/Laws/PerInstr.lean ====
section
/-! SUPPORT. One fact about every instruction as syntax: its word is a word of its own row. -/

namespace Sys2Proof.Laws.WordFitsRow

/-- The word of the instruction selects a row of R83 whose fields give the instruction back, or is a word of R84
that decodes to it. -/
def Statement (i : Instr) : Prop :=
  match encode i with
  | .cmd w => ∃ r : CmdRow, r.selects w = true ∧ r.instr w = i ∧ r.isHostPrimitive = i.isHostPrimitive
  | .prim w => decodePrim w = i ∧ i.isHostPrimitive = false

theorem init : Statement .init := ⟨.init, selects_init, rfl, rfl⟩

theorem writeBurst (a : SlaveAddr) (n : Count) : Statement (.writeBurst a n) :=
  ⟨.writeBurst, selects_writeBurst a n, by simp [CmdRow.instr], rfl⟩

theorem readBurst (a : SlaveAddr) (c : Count) : Statement (.readBurst a c) :=
  ⟨.readBurst, selects_readBurst a c, by simp [CmdRow.instr], rfl⟩

theorem writeThenRead (a : SlaveAddr) (m r : Count) : Statement (.writeThenRead a m r) :=
  ⟨.writeThenRead, selects_writeThenRead a m r, by simp [CmdRow.instr], rfl⟩

theorem start : Statement .start := ⟨.start, selects_start, rfl, rfl⟩

theorem stop : Statement .stop := ⟨.stop, selects_stop, rfl, rfl⟩

theorem writeByte (d : Byte) : Statement (.writeByte d) :=
  ⟨.writeByte, selects_writeByte d, by simp [CmdRow.instr], rfl⟩

theorem readByte (k : Ack) : Statement (.readByte k) :=
  ⟨.readByte, selects_readByte k, by cases k <;> decide, rfl⟩

theorem primStart : Statement .primStart := ⟨decodePrim_start _ _, rfl⟩

theorem primStop : Statement .primStop := ⟨decodePrim_stop _ _, rfl⟩

theorem primWrite (d : Byte) : Statement (.primWrite d) := ⟨decodePrim_write _ _, rfl⟩

theorem primRead (k : Ack) : Statement (.primRead k) := ⟨decodePrim_read _ _, rfl⟩

end Sys2Proof.Laws.WordFitsRow
end

