-- ==== Sys2Proof/Tests/Slice0.lean ====
section
/-! SUPPORT. Tests of single steps and of encodings, and for every statement with premises a state and operands
that meet them. Expected values come from spec/95_test_vectors.md and from the tables of the rules, never from the
model. -/

namespace Sys2Proof.Tests

open Sys2Proof Sys2Proof.Machine

/-! ### Helpers -/

/-- The result is a next state with this property. -/
def nextHas (r : Result) (p : State → Bool) : Bool :=
  match r with
  | .next t => p t
  | .fault _ => false
  | .refused _ => false

/-- The result is this refusal. -/
def refusedAs (r : Result) (e : Refusal) : Bool :=
  match r with
  | .next _ => false
  | .fault _ => false
  | .refused f => f == e

/-- Initialised and idle, in a build with host primitives. -/
def ready : State :=
  { State.reset with inited := true, params := { hostPrimitives := true, stopThenStartOk := false } }

/-- The host's frame is open (R121). -/
def openFrame (p : Phase) : State := { ready with phase := p }

/-- A transaction of `op` in this state of the sequencer, with address 0x3C, two bytes to transmit and two to
receive. -/
def during (op : Opcode) (q : Seq) (p : PStep) (ph : Phase) : State :=
  { ready with
    seq := q, pstep := p, phase := ph, op := op, addr := 0x3C, txlen := 2, rxcnt := 2
    tx := Memory.ofBytes [0x00, 0xAF], rxCap := 2 }

/-- The peripheral has finished, with 0x47 in its data register. -/
def finished (s : State) : State := { s with periph := { s.periph with fDone := true, regData := 0x47 } }

/-- A host-issued primitive accepted, with this operand in `rxcnt` (R121). -/
def hostIssued (op : Opcode) (rxc : Count) (p : PStep) (ph : Phase) : State :=
  { ready with seq := .prim, pstep := p, phase := ph, op := op, rxcnt := rxc }

/-- A live peripheral that holds each primitive for one step. -/
def answer (b : Byte) : PrimAnswer := { waits := 1, data := b, status := 0, slaveAck := true }

/-! ### WellFormed refuses the host primitives in a build without them (R89 c) -/

theorem test_wellFormed_refuses_start : Instr.start.wellFormed false = false := by decide
theorem test_wellFormed_refuses_stop : Instr.stop.wellFormed false = false := by decide
theorem test_wellFormed_refuses_writeByte : (Instr.writeByte 0xA0).wellFormed false = false := by decide
theorem test_wellFormed_refuses_readByte : (Instr.readByte .ack).wellFormed false = false := by decide
theorem test_wellFormed_admits :
    Instr.start.wellFormed true = true ∧ (Instr.writeBurst 0x3C 2).wellFormed false = true := by decide

/-! ### Encodings, from R81, R83, R84 and 95_test_vectors.md section 2 -/

theorem test_decode_init : decode false (.cmd 0x10000000) = .legal .init := by decide
theorem test_decode_writeBurst : decode false (.cmd 0x23C00200) = .legal (.writeBurst 0x3C 2) := by decide
theorem test_decode_readBurst : decode false (.cmd 0x36800003) = .legal (.readBurst 0x68 3) := by decide
theorem test_decode_writeThenRead :
    decode false (.cmd 0x45000102) = .legal (.writeThenRead 0x50 1 2) := by decide
theorem test_decode_start : decode true (.cmd 0x80000000) = .legal .start := by decide
theorem test_decode_stop : decode true (.cmd 0x90000000) = .legal .stop := by decide
theorem test_decode_writeByte : decode true (.cmd 0xA00000A0) = .legal (.writeByte 0xA0) := by decide
theorem test_decode_readByte_ack : decode true (.cmd 0xB0000001) = .legal (.readByte .ack) := by decide
theorem test_decode_readByte_nack : decode true (.cmd 0xB0000000) = .legal (.readByte .nack) := by decide
theorem test_decode_primStart : decodePrim 0b00000000000 = .primStart := by decide
theorem test_decode_primStop : decodePrim 0b01000000000 = .primStop := by decide
theorem test_decode_primWrite : decodePrim 0b10010100000 = .primWrite 0xA0 := by decide
theorem test_decode_primRead :
    decodePrim 0b11100000000 = .primRead .ack ∧ decodePrim 0b11000000000 = .primRead .nack := by decide

/-- Longest counts and the pseudo-commands of R93. -/
theorem test_decode_longest_and_empty :
    decode false (.cmd 0x27F0FF00) = .legal (.writeBurst 0x7F 255) ∧
    decode false (.cmd 0x23C00000) = .legal (.probeW 0x3C) ∧
    decode false (.cmd 0x36800000) = .legal (.probeR 0x68) := by decide

/-- R89 (a), (b), (c): a reserved opcode, a must-be-zero bit, a host primitive in a build without them. -/
theorem test_decode_illegal :
    decodeCmd true 0x00000000 = .illegal (.reservedOpcode 0) ∧
    decodeCmd true 0xF0000000 = .illegal (.reservedOpcode 0xF) ∧
    decodeCmd true 0x10000001 = .illegal (.mustBeZeroBitSet .init) ∧
    decodeCmd true 0x2BC00200 = .illegal (.mustBeZeroBitSet .writeBurst) ∧
    decodeCmd true 0xB0000002 = .illegal (.mustBeZeroBitSet .readByte) ∧
    decodeCmd false 0x80000000 = .illegal (.hostPrimitivesOff .start) := by decide

/-- The address bytes of 95_test_vectors.md. -/
theorem test_frame :
    frame 0x50 .write = 0xA0 ∧ frame 0x50 .read = 0xA1 ∧ frame 0x3C .write = 0x78 ∧ frame 0x68 .read = 0xD1 ∧
    frame 0x7F .read = 0xFF := by decide

/-- The AckDecisions of a read of three bytes and of one byte (R142, R145). -/
theorem test_ackDecision :
    ackDecision 0 3 = .ack ∧ ackDecision 1 3 = .ack ∧ ackDecision 2 3 = .nack ∧ ackDecision 0 1 = .nack ∧
    ackDecision 254 255 = .nack := by decide

/-! ### One step of each instruction -/

theorem test_init_sets_inited :
    nextHas (exec .init State.reset)
      (fun t => t.inited && t.out.initReq && t.out.cmdDone && t.periph.fEn && t.seq == .idle && t.trace == []) := by
  decide

theorem test_writeBurst_latches :
    nextHas (exec (.writeBurst 0x3C 2) ready)
      (fun t => t.op == 2 && t.addr == 0x3C && t.txlen == 2 && t.rxcnt == 0 && t.seq == .start && t.busy) := by
  decide

theorem test_readBurst_latches :
    nextHas (exec (.readBurst 0x68 3) ready)
      (fun t => t.op == 3 && t.addr == 0x68 && t.txlen == 0 && t.rxcnt == 3 && t.seq == .start) := by decide

theorem test_writeThenRead_latches :
    nextHas (exec (.writeThenRead 0x50 1 2) ready)
      (fun t => t.op == 4 && t.addr == 0x50 && t.txlen == 1 && t.rxcnt == 2 && t.seq == .start) := by decide

theorem test_transaction_before_init : refusedAs (exec (.writeBurst 0x3C 2) State.reset) .notInitialised := by decide

theorem test_start_accepted :
    nextHas (exec .start ready) (fun t => t.op == 8 && t.seq == .prim && t.pstep == .issue) := by decide

theorem test_stop_accepted :
    nextHas (exec .stop (openFrame .data)) (fun t => t.op == 9 && t.seq == .prim) := by decide

theorem test_stop_without_frame : refusedAs (exec .stop ready) .outsideBusPhaseMachine := by decide

theorem test_writeByte_operand_in_rxcnt :
    nextHas (exec (.writeByte 0xA1) (openFrame .address)) (fun t => t.op == 10 && t.rxcnt == 0xA1) := by decide

theorem test_readByte_operand_in_rxcnt :
    nextHas (exec (.readByte .ack) (openFrame .data)) (fun t => t.op == 11 && t.rxcnt == 1) := by decide

theorem test_primStart_issues :
    nextHas (exec .primStart (during 2 .start .issue .idle))
      (fun t => t.trace == [.reqStart] && t.calls == [.setControlBit .fStart, .setControlBit .fGo] &&
        t.pstep == .wait && t.phase == .idle) := by decide

theorem test_primStart_completes_to_addrR :
    nextHas (exec .primStart (finished (during 3 .start .wait .idle)))
      (fun t => t.trace == [.done] && t.phase == .address && t.seq == .addrR && t.pstep == .issue) := by decide

theorem test_primStop_ends_the_command :
    nextHas (exec .primStop (during 2 .stop .issue .data))
      (fun t => t.trace == [.reqStop] && t.calls == [.setControlBit .fStop, .setControlBit .fGo] &&
        t.seq == .idle && t.phase == .idle && t.out.cmdDone && t.periph.inFlight == some .stopCondition) := by decide

theorem test_primWrite_issues_address_byte :
    nextHas (exec (.primWrite 0x78) (during 2 .addrW .issue .address))
      (fun t => t.trace == [.reqWrite 0x78] && t.calls == [.writeDataRegister 0x78, .setControlBit .fGo] &&
        t.periph.regData == 0x78 && t.out.primWdata == 0x78 && t.phase == .address) := by decide

theorem test_primWrite_completes_last_byte :
    nextHas (exec (.primWrite 0xAF) (finished { during 4 .tx .wait .data with idx := 1 }))
      (fun t => t.seq == .rstart && t.idx == 2 && t.phase == .data && t.trace == [.done]) := by decide

theorem test_primRead_configures_the_acknowledge :
    nextHas (exec (.primRead .nack) { during 3 .rx .issue .data with idx := 1 })
      (fun t => t.calls == [.clearControlBit .fAck, .setControlBit .fGo] && t.trace == [.reqRead .nack] &&
        t.out.primOp == 3 && t.out.primAck == 0) := by decide

theorem test_primRead_stores_at_idx :
    nextHas (exec (.primRead .nack) (finished { during 3 .rx .wait .data with idx := 1 }))
      (fun t => t.rx == [(1, 0x47)] && t.seq == .stop && t.out.rxWe && t.out.rxIdx == 1 && t.out.rxData == 0x47 &&
        t.trace == [.doneRead 0x47]) := by decide

theorem test_hold_changes_nothing :
    nextHas (step (during 2 .tx .wait .data)) (fun t => t == during 2 .tx .wait .data) := by decide

/-- R232: no byte of the block's registers survives a reset in the middle of a transaction. -/
theorem test_reset_in_the_middle :
    nextHas (step { during 2 .tx .wait .data with rst := true })
      (fun t => t.seq == .idle && t.phase == .idle && !t.inited && t.freeCtr == 1) := by decide

/-! ### Words of opcode_table.json -/

theorem test_decodeTableWord :
    decodeTableWord 32 0x10000000 = some .init ∧ decodeTableWord 32 0xA0000000 = some (.writeByte 0) ∧
    decodeTableWord 16 0x200 = some .primStop ∧ decodeTableWord 16 0x600 = some (.primRead .nack) ∧
    decodeTableWord 32 0x50000000 = none := by decide

theorem test_withFetchWord_commands :
    nextHas (step (State.reset.withFetchWord 32 0x10000000)) (fun t => t.inited) ∧
    nextHas (step (State.reset.withFetchWord 32 0x20000000)) (fun t => t.op == 2) ∧
    nextHas (step (State.reset.withFetchWord 32 0x30000000)) (fun t => t.op == 3) ∧
    nextHas (step (State.reset.withFetchWord 32 0x40000000)) (fun t => t.op == 4) ∧
    nextHas (step (State.reset.withFetchWord 32 0x80000000)) (fun t => t.op == 8) ∧
    nextHas (step (State.reset.withFetchWord 32 0x90000000)) (fun t => t.op == 9) ∧
    nextHas (step (State.reset.withFetchWord 32 0xA0000000)) (fun t => t.op == 10) ∧
    nextHas (step (State.reset.withFetchWord 32 0xB0000000)) (fun t => t.op == 11) := by decide

theorem test_withFetchWord_primitives :
    nextHas (step (State.reset.withFetchWord 16 0x000)) (fun t => t.trace == [.reqStart]) ∧
    nextHas (step (State.reset.withFetchWord 16 0x200)) (fun t => t.trace == [.reqStop]) ∧
    nextHas (step (State.reset.withFetchWord 16 0x4A0)) (fun t => t.trace == [.reqWrite 0xA0]) ∧
    nextHas (step (State.reset.withFetchWord 16 0x600)) (fun t => t.trace == [.reqRead .nack]) ∧
    nextHas (step (State.reset.withFetchWord 16 0x700)) (fun t => t.trace == [.reqRead .ack]) := by decide

/-! ### Witnesses: states and operands that meet the premises of the statements

Each theorem lists, clause by clause, the premises of the statement it is named after, met by concrete values. -/

theorem test_premises_ResetIsIdleAndReady :
    State.reset.rst = false ∧ State.reset.seq = .idle ∧ State.reset.cmdPort = none := by decide

theorem test_premises_ResetStepDoesNothingElse :
    ({ during 2 .tx .wait .data with rst := true } : State).rst = true ∧
    (({ ready with rst := true } : State).rst = true ∧ ready.seq = .idle ∧ ready.phase = .idle) := by decide

theorem test_premises_StepRunsPresentedCommand :
    let s : State := { ready with cmdPort := some 0x23C00200 }
    s.rst = false ∧ s.seq = .idle ∧ s.cmdPort = some 0x23C00200 ∧
      decode s.params.hostPrimitives (.cmd 0x23C00200) = .legal (.writeBurst 0x3C 2) := by decide

theorem test_premises_StepRunsRequestedPrimitive :
    ((during 2 .addrW .issue .address).rst = false ∧ (during 2 .addrW .issue .address).seq ≠ .idle ∧
      (during 2 .addrW .issue .address).pstep = .issue ∧
      (during 2 .addrW .issue .address).requestWord = some 0b10001111000) ∧
    (during 2 .start .wait .idle).primitive = some .start ∧
    (during 2 .tx .wait .data).primitive = some .write ∧
    (during 3 .rx .wait .data).primitive = some .read ∧
    (hostIssued 11 1 .wait .data).primitive = some .read := by decide

theorem test_premises_IllegalWordIsRefused :
    let s : State := { ready with cmdPort := some 0x70000000 }
    s.rst = false ∧ s.seq = .idle ∧ s.cmdPort = some 0x70000000 ∧
      decodeCmd s.params.hostPrimitives 0x70000000 = .illegal (.reservedOpcode 7) ∧
      fieldOpc 0xFFFFFFFF ∈ ([0x0, 0x5, 0x6, 0x7, 0xC, 0xD, 0xE, 0xF] : List Opcode) ∧
      fieldOpc 0xB0000002 = CmdRow.readByte.opcode ∧
      (0xB0000002 : CmdWord) &&& CmdRow.readByte.mask ≠ CmdRow.readByte.pattern := by decide

theorem test_premises_CommandWaitsWhileBusy :
    let s : State := { during 2 .tx .issue .data with cmdPort := some 0x10000000 }
    s.rst = false ∧ s.seq ≠ .idle ∧ Instr.init.isCommand = true ∧ s.env = [] ∧
    nextHas (step s) (fun t => t.cmdPort == some 0x10000000) ∧
    nextHas (step { s with env := [[.withdraw]] }) (fun t => t.cmdPort == none) := by decide

theorem test_premises_DecodeOfEncodeIsTheInstruction :
    (Instr.readByte .nack).wellFormed true = true ∧ (Instr.writeThenRead 0x7F 255 255).wellFormed false = true ∧
    (Instr.primWrite 0xFF).wellFormed false = true := by decide

theorem test_premises_LegalWordIsTheEncoding :
    decodeCmd true 0xB0000001 = .legal (.readByte .ack) ∧
    (during 3 .rx .issue .data).requestWord = some 0b11100000000 := by decide

theorem test_premises_RowsArePairwiseDisjoint :
    CmdRow.readByte.selects 0xB0000001 = true ∧ CmdRow.init.selects 0x10000000 = true := by decide

theorem test_premises_AckDecisionIsNackForTheLastByte :
    (0 : Count) < 1 ∧ (254 : Count) < 255 ∧ (0 : Count) < 255 := by decide

theorem test_premises_AckSequenceEndsInOneNack : (1 : Count) ≠ 0 ∧ (255 : Count) ≠ 0 := by decide

theorem test_premises_PrimitiveOutsideTheTableIsRefused :
    ((hostIssued 8 0 .issue .address).rst = false ∧ (hostIssued 8 0 .issue .address).pstep = .issue ∧
      (hostIssued 8 0 .issue .address).primitive = some .start ∧ (hostIssued 8 0 .issue .address).phase = .address) ∧
    ((hostIssued 9 0 .issue .idle).primitive = some .stop ∧ (hostIssued 9 0 .issue .idle).phase ≠ .data) ∧
    ((hostIssued 10 0 .issue .idle).primitive = some .write ∧ (hostIssued 10 0 .issue .idle).phase = .idle) ∧
    ((hostIssued 11 0 .issue .address).primitive = some .read ∧
      (hostIssued 11 0 .issue .address).phase ≠ .data) := by decide

theorem test_premises_InitCompletesInOneStep :
    State.reset.rst = false ∧ State.reset.seq = .idle ∧ State.reset.phase = .idle := by decide

theorem test_premises_InitIsIdempotent :
    ready.rst = false ∧ ready.seq = .idle ∧ ready.phase = .idle ∧ ready.inited = true ∧
    nextHas (exec .init ready) (fun _ => true) := by decide

theorem test_premises_TransactionIsAccepted :
    (ready.rst = false ∧ ready.phase = .idle ∧ ready.inited = true ∧ ready.seq = .idle) ∧
    ((during 2 .start .issue .idle).rst = false ∧ (during 2 .start .issue .idle).seq ≠ .idle) := by decide

theorem test_premises_HostPrimitiveIsAccepted :
    (ready.rst = false ∧ ready.seq = .idle ∧ ready.inited = true ∧ ready.params.hostPrimitives = true ∧
      ready.phase = .idle) ∧
    ((openFrame .data).rst = false ∧ (openFrame .data).seq = .idle ∧ (openFrame .data).inited = true ∧
      (openFrame .data).params.hostPrimitives = true ∧ (openFrame .data).phase = .data) ∧
    (openFrame .address).phase = .address := by decide

theorem test_premises_CommandBeforeInitIsRefused :
    let s : State := { ready with inited := false }
    (s.rst = false ∧ s.seq = .idle ∧ s.inited = false) ∧
    ((Instr.writeBurst 0 0).isCommand = true ∧ Instr.writeBurst 0 0 ≠ .init ∧
      (Instr.writeBurst 0 0).wellFormed s.params.hostPrimitives = true) ∧
    (Instr.stop.isCommand = true ∧ Instr.stop ≠ .init ∧ Instr.stop.wellFormed s.params.hostPrimitives = true) := by
  decide

theorem test_premises_CommandInOpenFrameIsRefused :
    ((openFrame .address).rst = false ∧ (openFrame .address).seq = .idle ∧ (openFrame .address).inited = true ∧
      (openFrame .address).params.hostPrimitives = true ∧ (openFrame .address).phase = .address) ∧
    ready.phase = .idle := by decide

theorem test_premises_CommandFrame :
    ready.rst = false ∧ Instr.init.isCommand = true ∧ nextHas (exec .init ready) (fun _ => true) ∧
    Instr.start.isHostPrimitive = true ∧ nextHas (exec .start ready) (fun _ => true) ∧
    nextHas (exec (.readBurst 0x68 255) ready) (fun _ => true) := by decide

theorem test_premises_PrimStartFollowsItsRule :
    let s := during 2 .start .issue .idle
    let r := during 4 .rstart .wait .data
    let d : State :=
      { s with
        periph := { Periph.powerOn with fStop := true, inFlight := some .stopCondition }
        params := { s.params with stopThenStartOk := true } }
    (s.rst = false ∧ s.primitive = some .start ∧ s.pstep = .issue ∧ s.phase = .idle ∧
      s.periph.inFlight ≠ some .stopCondition) ∧
    (d.rst = false ∧ d.primitive = some .start ∧ d.pstep = .issue ∧ d.phase = .idle ∧
      d.periph.inFlight = some .stopCondition ∧ d.params.stopThenStartOk = true) ∧
    (r.rst = false ∧ r.primitive = some .start ∧ r.pstep = .wait ∧ r.periph.fDone = false) ∧
    ((finished r).primitive = some .start ∧ (finished r).periph.fDone = true ∧ (finished r).phase = .data) := by
  decide

theorem test_premises_PrimStopFollowsItsRule :
    let s := during 2 .stop .issue .data
    let h := hostIssued 9 0 .issue .data
    (s.rst = false ∧ s.primitive = some .stop ∧ s.pstep = .issue ∧ s.phase = .data ∧ s.periph.fStart = false) ∧
    (h.rst = false ∧ h.primitive = some .stop ∧ h.pstep = .issue ∧ h.phase = .data) := by decide

theorem test_premises_PrimWriteFollowsItsRule :
    let s := during 2 .addrW .issue .address
    let r := during 2 .tx .wait .data
    (s.rst = false ∧ s.primitive = some .write ∧ s.pstep = .issue ∧ s.phase = .address ∧
      s.periph.fStart = false ∧ s.periph.fStop = false ∧ s.periph.tracking ≠ .receiving) ∧
    (r.rst = false ∧ r.primitive = some .write ∧ r.pstep = .wait ∧ r.periph.fDone = false) ∧
    ((finished r).periph.fDone = true ∧ (finished r).phase = .data) := by decide

theorem test_premises_PrimReadFollowsItsRule :
    let s : State := { during 3 .rx .issue .data with periph := { Periph.powerOn with tracking := .receiving } }
    let r : State := { during 3 .rx .wait .data with idx := 1 }
    let h := finished (hostIssued 11 1 .wait .data)
    (s.rst = false ∧ s.primitive = some .read ∧ s.phase = .data ∧ s.pstep = .issue ∧ s.periph.fStart = false ∧
      s.periph.fStop = false ∧ s.periph.tracking = .receiving) ∧
    (r.primitive = some .read ∧ r.pstep = .wait ∧ r.periph.fDone = false) ∧
    ((finished r).periph.fDone = true ∧ (finished r).idx.toNat < (finished r).rxCap ∧ (finished r).seq = .rx) ∧
    (h.primitive = some .read ∧ h.phase = .data ∧ h.pstep = .wait ∧ h.periph.fDone = true ∧ h.seq = .prim) := by
  decide

theorem test_premises_StartStopFrame :
    (during 2 .start .issue .idle).rst = false ∧
    nextHas (exec .primStart (during 2 .start .issue .idle)) (fun _ => true) ∧
    nextHas (exec .primStop (during 2 .stop .issue .data)) (fun _ => true) := by decide

theorem test_premises_WriteFrame :
    nextHas (exec (.primWrite 0) (during 2 .tx .issue .data)) (fun _ => true) ∧
    nextHas (exec (.primWrite 0) (during 2 .tx .wait .data)) (fun _ => true) ∧
    nextHas (exec (.primWrite 0) (finished (hostIssued 10 0 .wait .address))) (fun _ => true) := by decide

theorem test_premises_ReadFrame :
    nextHas (exec (.primRead .ack) (during 3 .rx .issue .data)) (fun _ => true) ∧
    nextHas (exec (.primRead .ack) (during 3 .rx .wait .data)) (fun _ => true) ∧
    nextHas (exec (.primRead .ack) (finished (hostIssued 11 1 .wait .data))) (fun _ => true) ∧
    nextHas (exec (.primRead .ack) (finished (during 3 .rx .wait .data))) (fun _ => true) := by decide

theorem test_premises_StartDuringStopIsRefused :
    let s : State :=
      { during 2 .start .issue .idle with periph := { Periph.powerOn with inFlight := some .stopCondition } }
    s.rst = false ∧ s.primitive = some .start ∧ s.pstep = .issue ∧ s.phase = .idle ∧
      s.periph.inFlight = some .stopCondition ∧ s.params.stopThenStartOk = false := by decide

theorem test_premises_ReceiveBeyondStorageIsRefused :
    let s : State := finished { during 3 .rx .wait .data with rxCap := 0 }
    s.rst = false ∧ s.seq = .rx ∧ s.pstep = .wait ∧ s.phase = .data ∧ s.periph.fDone = true ∧
      s.rxCap ≤ s.idx.toNat := by decide

theorem test_premises_SequencerRequestsTheTabledPrimitive :
    Memory.read (during 2 .tx .issue .data).tx (during 2 .tx .issue .data).idx.toNat = some 0x00 ∧
    (hostIssued 8 0 .issue .idle).op = 8 ∧ (hostIssued 9 0 .issue .data).op = 9 ∧
    (hostIssued 10 0 .issue .data).op = 10 ∧ (hostIssued 11 0 .issue .data).op = 11 := by decide

/-- A transaction in SEQ_RX at P_WAIT, finished, with the last byte to come. -/
def lastReceive : State := finished { during 3 .rx .wait .data with idx := 1 }

theorem test_lastReceive_coherent : lastReceive.Coherent := by
  constructor <;> simp [lastReceive, finished, during, ready, State.primitive]

theorem test_premises_SequencerMovesAsTabled :
    lastReceive.rst = false ∧ lastReceive.Coherent ∧ lastReceive.pstep = .wait ∧ lastReceive.periph.fDone = true ∧
    (lastReceive.seq = .rx → lastReceive.idx.toNat < lastReceive.rxCap) :=
  ⟨rfl, test_lastReceive_coherent, rfl, rfl, by decide⟩

/-- The last receive in a build without host primitives. -/
def lastReceiveOnly : State :=
  { lastReceive with params := { hostPrimitives := false, stopThenStartOk := false } }

theorem test_lastReceiveOnly_invariant : lastReceiveOnly.SequencerInvariant := by
  constructor <;> simp [lastReceiveOnly, lastReceive, finished, during, ready]

theorem test_premises_SequencerInvariantIsKept :
    lastReceiveOnly.params.hostPrimitives = false ∧ lastReceiveOnly.SequencerInvariant ∧
    nextHas (step lastReceiveOnly) (fun t => t.seq == .stop) :=
  ⟨rfl, test_lastReceiveOnly_invariant, by decide⟩

theorem test_premises_CoherenceIsKept :
    lastReceive.Coherent ∧ nextHas (step lastReceive) (fun t => t.seq == .stop) :=
  ⟨test_lastReceive_coherent, by decide⟩

/-- A first Start in flight: at P_WAIT, not finished, and no move to come. -/
def startInFlight : State :=
  { during 2 .start .wait .idle with
    periph := { Periph.powerOn with fStart := true, inFlight := some .startCondition } }

theorem test_startInFlight_coherent : startInFlight.Coherent := by
  constructor <;> simp [startInFlight, during, ready, State.primitive]

theorem test_startInFlight_discipline : startInFlight.TriggerDiscipline := by
  constructor <;> simp [startInFlight, during, Periph.powerOn]

theorem test_premises_TriggerDisciplineIsKept :
    (startInFlight.rst = true → startInFlight.seq = .idle ∧ startInFlight.phase = .idle) ∧
    startInFlight.TriggerDiscipline ∧ nextHas (step startInFlight) (fun t => t.pstep == .wait) :=
  ⟨by decide, test_startInFlight_discipline, by decide⟩

theorem test_premises_ViewsStayCanonical :
    Memory.wf lastReceive.tx ∧ Memory.wf lastReceive.rx ∧ nextHas (step lastReceive) (fun t => t.rx != []) := by
  decide

theorem test_premises_BusyBlockAlwaysSteps :
    lastReceive.Coherent ∧ lastReceive.rst = false ∧ lastReceive.seq ≠ .idle ∧
    (lastReceive.seq = .rx → lastReceive.idx.toNat < lastReceive.rxCap) ∧
    (lastReceive.periph.inFlight ≠ some .stopCondition ∨ lastReceive.params.stopThenStartOk = true) :=
  ⟨test_lastReceive_coherent, rfl, by decide, by decide, by decide⟩

/-- A step is refused for each reason that State.RefusedFor lists. -/
theorem test_premises_NothingFaults :
    refusedAs (step { ready with cmdPort := some 0x70000000 }) (.illegalWord (.reservedOpcode 7)) ∧
    refusedAs (step { State.reset with cmdPort := some 0x23C00200 }) .notInitialised ∧
    refusedAs (step { openFrame .data with cmdPort := some 0x10000000 }) .frameOpen ∧
    refusedAs (step { ready with cmdPort := some 0x90000000 }) .outsideBusPhaseMachine ∧
    refusedAs (step (during 2 .stop .issue .idle)) .outsideBusPhaseMachine ∧
    refusedAs (step { during 2 .start .issue .idle with
      periph := { Periph.powerOn with inFlight := some .stopCondition } }) .startDuringStop ∧
    refusedAs (step (finished { during 3 .rx .wait .data with rxCap := 0 })) .receiveBeyondStorage ∧
    refusedAs (step (hostIssued 0 0 .issue .idle)) .unreachableSequencerState ∧
    refusedAs (step (during 2 .stop .wait .data)) .unreachableSequencerState := by decide

theorem test_premises_LatchesChangeOnlyAtAcceptance :
    (ready.rst = false ∧ nextHas (step ready) (fun _ => true) ∧ ready.cmdPort = none) ∧
    (lastReceive.rst = false ∧ nextHas (step lastReceive) (fun _ => true) ∧ lastReceive.seq ≠ .idle) ∧
    (let s : State := { ready with cmdPort := some 0x20000000 }
     s.seq = .idle ∧ s.cmdPort = some 0x20000000 ∧ (0x20000000 : CmdWord) ≠ 0x10000000 ∧
       nextHas (step s) (fun _ => true)) ∧
    nextHas (step (finished (hostIssued 11 1 .wait .data)))
      (fun t => t.rspData != (finished (hostIssued 11 1 .wait .data)).rspData) := by decide

theorem test_premises_ViewsChangeOnlyByReceivedBytes :
    lastReceive.env = [] ∧ nextHas (step lastReceive) (fun t => t.rx == [(1, 0x47)] && t.tx == lastReceive.tx) ∧
    nextHas (step { lastReceive with env := [[.storeTx 5 0x22]] })
      (fun t => Memory.read t.tx 5 == some 0x22) := by decide

/-- The terminal Stop of a build without host primitives. -/
def stopping : State :=
  { during 2 .stop .issue .data with params := { hostPrimitives := false, stopThenStartOk := false } }

theorem test_stopping_coherent : stopping.Coherent := by
  constructor <;> simp [stopping, during, ready, State.primitive]

theorem test_stopping_invariant : stopping.SequencerInvariant := by
  constructor <;> simp [stopping, during, ready]

theorem test_finished_start_coherent : (finished startInFlight).Coherent := by
  constructor <;> simp [finished, startInFlight, during, ready, State.primitive]

theorem test_premises_OnlyStopReleasesTheBus :
    (stopping.Coherent ∧ stopping.rst = false ∧ stopping.phase ≠ .idle ∧
      nextHas (step stopping) (fun t => t.phase == .idle) ∧ stopping.params.hostPrimitives = false ∧
      stopping.SequencerInvariant) ∧
    ((finished startInFlight).Coherent ∧ (finished startInFlight).rst = false ∧ (finished startInFlight).phase = .idle ∧
      nextHas (step (finished startInFlight)) (fun t => t.phase != .idle)) :=
  ⟨⟨test_stopping_coherent, rfl, by decide, by decide, rfl, test_stopping_invariant⟩,
    test_finished_start_coherent, rfl, rfl, by decide⟩

theorem test_premises_EventsComeInOrder :
    nextHas (step stopping) (fun t => t.trace == [.reqStop] && t.seq == .idle) ∧
    nextHas (step lastReceive) (fun t => t.trace == [.doneRead 0x47]) ∧
    nextHas (step (during 2 .start .issue .idle)) (fun t => t.trace == [.reqStart]) := by decide

/-- Two different states that are the same to the block. -/
theorem test_premises_AcknowledgeAndStatusAreNeverSeen :
    let s : State := { ready with env := [[.phaseDone 0x47 3 true]] }
    let s' : State :=
      { ready with
        env := [[.phaseDone 0x47 0 false]], periph := { Periph.powerOn with slaveAck := true, regStatus := 9 } }
    s ≠ s' ∧ s.blind = s'.blind := by decide

theorem test_premises_HoldLastsUntilThePeripheralFinishes :
    let s : State := { startInFlight with env := [[.takeRequest], [.present 0x10000000]] }
    s.rst = false ∧ s.pstep = .wait ∧ s.primitive = some .start ∧ Prim.start ≠ .stop ∧ s.periph.fDone = false ∧
    (∀ slot ∈ s.env, ∀ m ∈ slot, m.endsPhase = false ∧ m ≠ .setRst true) := by decide

/-- A busy block whose peripheral never finishes meets the premises of the statement that is expected to fail. -/
theorem test_premises_EveryAcceptedCommandEnds :
    startInFlight.Coherent ∧ startInFlight.TriggerDiscipline ∧ startInFlight.rst = false ∧
    startInFlight.seq ≠ .idle :=
  ⟨test_startInFlight_coherent, test_startInFlight_discipline, rfl, by decide⟩

/-- The block ready for this word, with these answers of the peripheral to come. -/
def readyFor (w : CmdWord) (answers : List PrimAnswer) : State :=
  { ready with cmdPort := some w, tx := Memory.ofBytes [0x00, 0xAF], rxCap := 2, env := transactionSlots answers }

theorem test_readyFor_writeBurst :
    (readyFor 0x23C00200 (List.replicate 4 (answer 0))).ReadyFor (encode (.writeBurst 0x3C 2)) :=
  { not_reset := rfl, idle := rfl, bus_idle := rfl, initialised := rfl
    presented := ⟨0x23C00200, by decide, rfl⟩, no_hazard := by decide }

theorem test_premises_WriteBurstRuns :
    let s := readyFor 0x23C00200 (List.replicate 4 (answer 0))
    s.ReadyFor (encode (.writeBurst 0x3C 2)) ∧ [(0x00 : Byte), 0xAF].length = (2 : Count).toNat ∧
    (∀ j (h : j < [(0x00 : Byte), 0xAF].length), Memory.read s.tx j = some [(0x00 : Byte), 0xAF][j]) ∧
    (List.replicate 4 (answer 0)).length = (2 : Count).toNat + 2 ∧
    s.env = transactionSlots (List.replicate 4 (answer 0)) ++ [] :=
  ⟨test_readyFor_writeBurst, rfl, by decide, rfl, by decide⟩

theorem test_premises_ReadBurstRuns :
    let s := readyFor 0x36800002 (List.replicate 4 (answer 0x47))
    s.ReadyFor (encode (.readBurst 0x68 2)) ∧ (2 : Count).toNat ≤ s.rxCap ∧
    (List.replicate 4 (answer 0x47)).length = (2 : Count).toNat + 2 ∧
    s.env = transactionSlots (List.replicate 4 (answer 0x47)) ++ [] ∧ (2 : Count) ≠ 0 :=
  ⟨{ not_reset := rfl, idle := rfl, bus_idle := rfl, initialised := rfl
     presented := ⟨0x36800002, by decide, rfl⟩, no_hazard := by decide }, by decide, rfl, by decide, by decide⟩

theorem test_premises_WriteThenReadRuns :
    let s := readyFor 0x45000102 (List.replicate 7 (answer 0x47))
    s.ReadyFor (encode (.writeThenRead 0x50 1 2)) ∧ (2 : Count).toNat ≤ s.rxCap ∧
    [(0x00 : Byte)].length = (1 : Count).toNat ∧
    (∀ j (h : j < [(0x00 : Byte)].length), Memory.read s.tx j = some [(0x00 : Byte)][j]) ∧
    (List.replicate 7 (answer 0x47)).length = (1 : Count).toNat + (2 : Count).toNat + 4 ∧
    s.env = transactionSlots (List.replicate 7 (answer 0x47)) ++ [] :=
  ⟨{ not_reset := rfl, idle := rfl, bus_idle := rfl, initialised := rfl
     presented := ⟨0x45000102, by decide, rfl⟩, no_hazard := by decide }, by decide, rfl, by decide, rfl, by decide⟩

theorem test_premises_HostPrimitiveRuns :
    let p := answer 0x47
    let s : State := { ready with cmdPort := some 0x80000000, env := [] :: p.slots ++ [] }
    let u : State := { openFrame .data with cmdPort := some 0x90000000, env := [] :: [] :: [] }
    let w : State := { openFrame .address with cmdPort := some 0xA00000A0, env := [] :: p.slots ++ [] }
    let r : State := { openFrame .data with cmdPort := some 0xB0000001, env := [] :: p.slots ++ [] }
    (s.rst = false ∧ s.seq = .idle ∧ s.inited = true ∧ s.params.hostPrimitives = true ∧ s.phase = .idle ∧
      s.periph.inFlight ≠ some .stopCondition) ∧
    (u.seq = .idle ∧ u.phase = .data ∧ u.env = [] :: [] :: []) ∧
    (w.cmdPort = some ((0xA00000 : BitVec 24) ++ (0xA0 : Byte)) ∧ w.phase = .address ∧ w.periph.inFlight = none ∧
      w.periph.fStart = false ∧ w.periph.fStop = false) ∧
    (r.cmdPort = some ((0x58000000 : BitVec 31) ++ Ack.ack.toBit) ∧ r.phase = .data ∧ r.periph.inFlight = none ∧
      r.periph.fStart = false ∧ r.periph.fStop = false) := by decide

end Sys2Proof.Tests
end

section
/-! The address byte (Format A): R85, R86, R140, R141. -/

namespace Sys2Proof

open Sys2Proof.Machine

/-- R86: the direction bit is 1 exactly for a read. -/
@[simp] theorem Dir.toBit_getLsbD_zero (d : Dir) : d.toBit.getLsbD 0 = (d == .read) := by
  cases d <;> rfl

/-- R85: the shift and the or of R140 put the two fields side by side, the address above the direction bit. -/
theorem frame_eq_append (a : SlaveAddr) (d : Dir) : frame a d = a ++ d.toBit :=
  calc frame a d = (a ++ d.toBit).setWidth 8 := BitVec.setWidth_append_eq_shiftLeft_setWidth_or.symm
    _ = a ++ d.toBit := BitVec.setWidth_eq _

/-- R140 as arithmetic: the direction bit fills the place the doubling leaves free. -/
theorem toNat_frame (a : SlaveAddr) (d : Dir) : (frame a d).toNat = 2 * a.toNat + d.toBit.toNat := by
  have hbit : d.toBit.toNat < 2 ^ 1 := d.toBit.isLt
  rw [frame_eq_append, BitVec.toNat_append, ← Nat.shiftLeft_add_eq_or_of_lt hbit, Nat.shiftLeft_eq]
  omega

@[simp] theorem extract_addr_frame (a : SlaveAddr) (d : Dir) : (frame a d).extractLsb' 1 7 = a := by
  rw [frame_eq_append]
  exact BitVec.extractLsb'_append_eq_left

@[simp] theorem frame_getLsbD_zero (a : SlaveAddr) (d : Dir) : (frame a d).getLsbD 0 = (d == .read) := by
  rw [frame_eq_append, BitVec.getLsbD_append]
  exact d.toBit_getLsbD_zero

/-- Adding 1 to the write address byte does not wrap: its bit 0 is 0 (R86). -/
theorem frame_read_eq_frame_write_add_one (a : SlaveAddr) : frame a .read = frame a .write + 1 := by
  have hwrite : (frame a .write).toNat = 2 * a.toNat := toNat_frame a .write
  have hread : (frame a .read).toNat = 2 * a.toNat + 1 := toNat_frame a .read
  have ha : a.toNat < 2 ^ 7 := a.isLt
  apply BitVec.eq_of_toNat_eq
  rw [BitVec.toNat_add, hwrite, hread]
  exact (Nat.mod_eq_of_lt (by omega)).symm

/-- Settles O11: the fields read off the concatenation, and R140's expression is the definition of `frame`. -/
theorem addressByteIsAddressThenDirection : Obligations.AddressByteIsAddressThenDirection := by
  intro a d
  exact ⟨frame_eq_append a d, toNat_frame a d, extract_addr_frame a d, frame_getLsbD_zero a d, rfl,
    frame_read_eq_frame_write_add_one a⟩

end Sys2Proof
end

section
/-! What the block cannot see (R38 (c) and (d), R118): hiding the slave's acknowledge and the result code, by
`State.blind`, commutes with every operation of the block and with every move of the other agents. -/

namespace Sys2Proof.Machine

@[simp] theorem EnvMove.blind_blind (m : EnvMove) : m.blind.blind = m.blind := by cases m <;> rfl

@[simp] theorem State.blind_blind (s : State) : s.blind.blind = s.blind := by
  simp [State.blind, Function.comp_def]

@[simp] theorem blindResult_next (s : State) : blindResult (.next s) = .next s.blind := rfl
@[simp] theorem blindResult_refused (e : Refusal) : blindResult (.refused e) = .refused e := rfl

@[simp] theorem blindResult_blindResult (r : Result) : blindResult (blindResult r) = blindResult r := by
  cases r with
  | next t => simp
  | fault f => rfl
  | refused e => rfl

/-! ### What the block reads is not hidden -/

@[simp] theorem State.blind_params (s : State) : s.blind.params = s.params := rfl
@[simp] theorem State.blind_rst (s : State) : s.blind.rst = s.rst := rfl
@[simp] theorem State.blind_cmdPort (s : State) : s.blind.cmdPort = s.cmdPort := rfl
@[simp] theorem State.blind_seq (s : State) : s.blind.seq = s.seq := rfl
@[simp] theorem State.blind_pstep (s : State) : s.blind.pstep = s.pstep := rfl
@[simp] theorem State.blind_phase (s : State) : s.blind.phase = s.phase := rfl
@[simp] theorem State.blind_primitive (s : State) : s.blind.primitive = s.primitive := rfl
@[simp] theorem State.blind_requestWord (s : State) : s.blind.requestWord = s.requestWord := rfl

/-! ### The moves of the other agents -/

/-- A move reports to the hidden fields only what `EnvMove.blind` takes from it. -/
theorem State.blind_envMove (s : State) (m : EnvMove) : (s.envMove m).blind = s.blind.envMove m.blind := by
  cases m with
  | present | withdraw | setRst | passTxView | passRxView | storeTx | takeRequest => rfl
  | storeRx i b =>
    by_cases h : i.toNat < s.rxCap <;> simp [State.envMove, EnvMove.blind, State.blind, h]
  | phaseDone data status ack =>
    rcases h : s.periph.inFlight with _ | ph
    · simp [State.envMove, EnvMove.blind, State.blind, Periph.phaseDone, h]
    · cases ph <;> simp [State.envMove, EnvMove.blind, State.blind, Periph.phaseDone, h]
  | stopDriven done status =>
    rcases h : s.periph.inFlight with _ | ph
    · simp [State.envMove, EnvMove.blind, State.blind, Periph.stopDriven, h]
    · cases ph <;> simp [State.envMove, EnvMove.blind, State.blind, Periph.stopDriven, h]

theorem State.blind_envMoves (s : State) (ms : List EnvMove) :
    (s.envMoves ms).blind = s.blind.envMoves (ms.map EnvMove.blind) := by
  induction ms generalizing s with
  | nil => rfl
  | cons m ms ih => exact (ih (s.envMove m)).trans (by rw [State.blind_envMove]; rfl)

theorem State.blind_envStep (s : State) : s.envStep.blind = s.blind.envStep := by
  cases h : s.env with
  | nil => rw [State.envStep_nil h, State.envStep_nil (by simp [State.blind, h])]
  | cons slot rest =>
    have hl : s.envStep = { s with env := rest }.envMoves slot := by simp only [State.envStep, h]
    have hr : s.blind.envStep = ({ s with env := rest } : State).blind.envMoves (slot.map EnvMove.blind) := by
      simp only [State.envStep, State.blind, h, List.map_cons]
    rw [hl, hr, State.blind_envMoves]

@[simp] theorem blindResult_thenEnvironment (r : Result) :
    blindResult (thenEnvironment r) = thenEnvironment (blindResult r) := by
  cases r with
  | next t => exact congrArg Host.Outcome.next t.blind_envStep
  | fault f => rfl
  | refused e => rfl

/-! ### The steps of the block -/

/-- Reset is the one step of the block that writes hidden fields: in the middle of a frame they become free values
(R232), so the two sides agree only when hidden again. -/
theorem State.blind_resetStep (s : State) : s.blind.resetStep.blind = s.resetStep.blind := by
  have hm : s.blind.midFrame = s.midFrame := rfl
  cases h : s.midFrame <;> simp [State.resetStep, hm, h] <;> simp [State.blind, Function.comp_def]

theorem State.blind_storeReceived (s : State) (b : Byte) :
    s.blind.storeReceived b = (s.storeReceived b).map State.blind := by
  cases h : s.seq with
  | rx =>
    simp only [State.storeReceived, State.blind_seq, h, apply_ite (Option.map State.blind)]
    rfl
  | idle | start | addrW | tx | rstart | addrR | stop | prim =>
    simp only [State.storeReceived, State.blind_seq, h]
    rfl

/-- The state in which the completion step of ReadByte stores the byte: the wait and the read of the data register
have returned, the event is made (R115). -/
def State.afterDataRead (s : State) : State :=
  ({ s with out := Outputs.quiet }.waitReturned.readDataRegister).emit (.doneRead s.periph.regData)

theorem completeRead_eq (s : State) (after : Phase) :
    completeRead s after = (s.afterDataRead.storeReceived s.periph.regData).elim (.refused .receiveBeyondStorage)
      fun t => .next { t.advance with phase := after, pstep := .issue } := by
  simp only [completeRead, State.afterDataRead]
  split <;> simp [*]

theorem completeRead_blind (s : State) (after : Phase) :
    completeRead s.blind after = blindResult (completeRead s after) := by
  have hread : s.blind.afterDataRead = s.afterDataRead.blind := rfl
  have hdata : s.blind.periph.regData = s.periph.regData := rfl
  rw [completeRead_eq, completeRead_eq, hread, hdata, State.blind_storeReceived]
  cases s.afterDataRead.storeReceived s.periph.regData <;> rfl

/-- Hiding passes through a guard that reads nothing hidden. -/
theorem ite_eq_blindResult {c : Prop} [Decidable c] {r₁ r₂ r₁' r₂' : Result} (h₁ : r₁' = blindResult r₁)
    (h₂ : r₂' = blindResult r₂) : (if c then r₁' else r₂') = blindResult (if c then r₁ else r₂) := by
  rw [h₁, h₂, apply_ite blindResult]

theorem resume_blind (k : Prim) (s : State) : resume k s.blind = blindResult (resume k s) := by
  cases k with
  | stop => rfl
  | start => exact ite_eq_blindResult (by rw [State.blind_phase]; cases phaseAfter s.phase .start <;> rfl) rfl
  | write => exact ite_eq_blindResult (by rw [State.blind_phase]; cases phaseAfter s.phase .write <;> rfl) rfl
  | read =>
    refine ite_eq_blindResult ?_ rfl
    rw [State.blind_phase]
    cases phaseAfter s.phase .read with
    | none => rfl
    | some after => exact completeRead_blind s after

theorem onCommandPort_blind {s : State} {r r' : Result} (hr : s.rst = false) (h : r' = blindResult r) :
    onCommandPort s.blind r' = blindResult (onCommandPort s r) := by
  simp only [onCommandPort, State.blind_rst, State.blind_seq, hr, Bool.false_eq_true, if_false]
  exact ite_eq_blindResult h rfl

theorem onRequestPort_blind {s : State} {k : Prim} {r r' : Result} (hr : s.rst = false) (h : r' = blindResult r) :
    onRequestPort k s.blind r' = blindResult (onRequestPort k s r) := by
  by_cases hk : s.primitive = some k
  · cases hs : s.pstep with
    | issue =>
      cases hp : phaseAfter s.phase k with
      | none => simp [onRequestPort, hr, hk, hs, hp]
      | some q => simp [onRequestPort, hr, hk, hs, hp, h]
    | wait => simp [onRequestPort, hr, hk, hs, resume_blind]
  · simp [onRequestPort, hr, hk]

theorem acceptTransaction_blind {s : State} (row : CmdRow) (a : SlaveAddr) (txl rxc : Count) (hr : s.rst = false) :
    acceptTransaction row a txl rxc s.blind = blindResult (acceptTransaction row a txl rxc s) :=
  onCommandPort_blind hr (ite_eq_blindResult rfl (ite_eq_blindResult rfl rfl))

theorem acceptHostPrimitive_blind {s : State} (row : CmdRow) (k : Prim) (rxc : Byte) (hr : s.rst = false) :
    acceptHostPrimitive row k rxc s.blind = blindResult (acceptHostPrimitive row k rxc s) := by
  refine onCommandPort_blind hr (ite_eq_blindResult rfl (ite_eq_blindResult rfl ?_))
  rw [State.blind_phase]
  cases phaseAfter s.phase k <;> rfl

/-- Out of reset the meaning of an instruction neither reads nor writes what is hidden (R118). -/
theorem exec_blind {s : State} (i : Instr) (hr : s.rst = false) : exec i s.blind = blindResult (exec i s) := by
  cases i with
  | init => exact onCommandPort_blind hr (ite_eq_blindResult rfl rfl)
  | writeBurst a n => exact acceptTransaction_blind .writeBurst a n 0 hr
  | readBurst a c => exact acceptTransaction_blind .readBurst a 0 c hr
  | writeThenRead a m r => exact acceptTransaction_blind .writeThenRead a m r hr
  | start => exact acceptHostPrimitive_blind .start .start 0 hr
  | stop => exact acceptHostPrimitive_blind .stop .stop 0 hr
  | writeByte d => exact acceptHostPrimitive_blind .writeByte .write d hr
  | readByte k => exact acceptHostPrimitive_blind .readByte .read (ackByte k) hr
  | primStart => exact onRequestPort_blind hr (ite_eq_blindResult rfl rfl)
  | primStop => exact onRequestPort_blind hr rfl
  | primWrite d => exact onRequestPort_blind hr rfl
  | primRead k => exact onRequestPort_blind hr (by cases k <;> rfl)

theorem resumeInFlight_blind (s : State) : resumeInFlight s.blind = blindResult (resumeInFlight s) := by
  rw [resumeInFlight, resumeInFlight, State.blind_primitive]
  cases s.primitive with
  | none => rfl
  | some k => exact resume_blind k s

/-! ### Steps and runs -/

theorem step_in_reset {s : State} (hr : s.rst = true) : step s = .next s.resetStep.envStep := by
  simp [step, fetch, hr, thenEnvironment]

/-- Out of reset the fetch reads nothing hidden, so each of its cases hands on to a meaning that does not either. -/
theorem step_blind {s : State} (hr : s.rst = false) : step s.blind = blindResult (step s) := by
  by_cases hs : s.seq = .idle
  · cases hw : s.cmdPort with
    | none =>
      have hidle : s.blind.idleStep = s.idleStep.blind := rfl
      simp [step, fetch, hr, hs, hw, hidle]
    | some w =>
      cases hd : decodeCmd s.params.hostPrimitives w with
      | legal i => simp [step, fetch, hr, hs, hw, hd, exec_blind i hr]
      | illegal why => simp [step, fetch, hr, hs, hw, hd]
  · cases hp : s.pstep with
    | issue =>
      cases hw : s.requestWord with
      | none => simp [step, fetch, hr, hs, hp, hw]
      | some w => simp [step, fetch, hr, hs, hp, hw, exec_blind _ hr]
    | wait => simp [step, fetch, hr, hs, hp, resumeInFlight_blind]

/-- Hiding first makes no difference to what can be seen of a step. -/
theorem blindResult_step_blind (s : State) : blindResult (step s.blind) = blindResult (step s) := by
  cases hr : s.rst with
  | false => rw [step_blind hr, blindResult_blindResult]
  | true =>
    rw [step_in_reset hr, step_in_reset (s := s.blind) hr]
    simp only [blindResult, State.blind_envStep, State.blind_resetStep]

/-- The step lemma of the noninterference: two states equal up to what is hidden step to such results. -/
theorem step_blind_congr {s s' : State} (h : s.blind = s'.blind) : blindResult (step s) = blindResult (step s') := by
  rw [← blindResult_step_blind s, h, blindResult_step_blind s']

/-- Runs that go on from results equal up to what is hidden: either both have a next state, or both have stopped with
the same reason. -/
theorem blindResult_andRun {n : Nat} {r r' : Result}
    (hrun : ∀ s s' : State, s.blind = s'.blind → blindResult (core.run n s) = blindResult (core.run n s'))
    (h : blindResult r = blindResult r') : blindResult (andRun r n) = blindResult (andRun r' n) := by
  cases r with
  | next t =>
    cases r' with
    | next t' => exact hrun t t' (Host.Outcome.next.inj h)
    | fault f => exact nomatch f
    | refused e => simp at h
  | fault f => exact nomatch f
  | refused e =>
    cases r' with
    | next t' => simp at h
    | fault f => exact nomatch f
    | refused e' => exact h

/-- Settles O44, by induction on the number of steps: each step keeps two states equal up to what is hidden. -/
theorem acknowledgeAndStatusAreNeverSeen : Obligations.AcknowledgeAndStatusAreNeverSeen := by
  intro k
  induction k with
  | zero => exact fun s s' h => congrArg Host.Outcome.next h
  | succ k ih =>
    intro s s' h
    have hstep := step_blind_congr h
    rw [run_succ, run_succ]
    exact blindResult_andRun ih hstep

end Sys2Proof.Machine
end

section
/-! Commands that the bus-phase machine has no place for (R122). -/

namespace Sys2Proof.Machine

/-- INIT with a frame open. -/
theorem execInit_frameOpen {s : State} (hr : s.rst = false) (hs : s.seq = .idle) (hp : s.phase ≠ .idle) :
    exec .init s = .refused .frameOpen := by
  simp [exec, execInit, onCommandPort, hr, hs, hp]

/-- A transaction with a frame open. -/
theorem acceptTransaction_frameOpen {s : State} (row : CmdRow) (a : SlaveAddr) (txl rxc : Count)
    (hr : s.rst = false) (hs : s.seq = .idle) (hn : s.inited = true) (hp : s.phase ≠ .idle) :
    acceptTransaction row a txl rxc s = .refused .frameOpen := by
  simp [acceptTransaction, onCommandPort, hr, hs, hn, hp]

/-- A host-issued primitive outside the table of R111. -/
theorem acceptHostPrimitive_outside {s : State} (row : CmdRow) {k : Prim} (rxc : Byte) (hr : s.rst = false)
    (hs : s.seq = .idle) (hh : s.params.hostPrimitives = true) (hn : s.inited = true)
    (hp : phaseAfter s.phase k = none) : acceptHostPrimitive row k rxc s = .refused .outsideBusPhaseMachine := by
  simp [acceptHostPrimitive, onCommandPort, hr, hs, hh, hn, hp]

theorem phaseAfter_stop_none {p : Phase} (hp : p ≠ .data) : phaseAfter p .stop = none :=
  Option.eq_none_iff_forall_ne_some.2 fun _ h => hp (phaseAfter_stop_eq.1 h).1

theorem phaseAfter_read_none {p : Phase} (hp : p ≠ .data) : phaseAfter p .read = none :=
  Option.eq_none_iff_forall_ne_some.2 fun _ h => hp (phaseAfter_read_eq.1 h).1

/-- Settles O20, from the three acceptance guards and the table of R111. -/
theorem commandInOpenFrameIsRefused : Obligations.CommandInOpenFrameIsRefused := by
  intro s hr hs
  refine ⟨execInit_frameOpen hr hs, fun hp hn => ⟨?_, ?_, ?_⟩, fun hn hh => ⟨?_, ?_, ?_, ?_⟩⟩
  · exact fun a n => acceptTransaction_frameOpen .writeBurst a n 0 hr hs hn hp
  · exact fun a c => acceptTransaction_frameOpen .readBurst a 0 c hr hs hn hp
  · exact fun a m r => acceptTransaction_frameOpen .writeThenRead a m r hr hs hn hp
  · exact fun hp => acceptHostPrimitive_outside .start 0 hr hs hh hn (by rw [hp]; rfl)
  · exact fun hp => acceptHostPrimitive_outside .stop 0 hr hs hh hn (phaseAfter_stop_none hp)
  · exact fun hp d => acceptHostPrimitive_outside .writeByte d hr hs hh hn (by rw [hp]; rfl)
  · exact fun hp k => acceptHostPrimitive_outside .readByte (ackByte k) hr hs hh hn (phaseAfter_read_none hp)

end Sys2Proof.Machine
end

section
/-! The encoding of both ports (R83, R84, R89, R94): every instruction's word decodes to it, and every legal word is
the word of one instruction. -/

namespace Sys2Proof

open Sys2Proof.Machine

/-! ### The word of an instruction -/

theorem wordFitsRow (i : Instr) : Laws.WordFitsRow.Statement i := by
  cases i with
  | init => exact Laws.WordFitsRow.init
  | writeBurst a n => exact Laws.WordFitsRow.writeBurst a n
  | readBurst a c => exact Laws.WordFitsRow.readBurst a c
  | writeThenRead a m r => exact Laws.WordFitsRow.writeThenRead a m r
  | start => exact Laws.WordFitsRow.start
  | stop => exact Laws.WordFitsRow.stop
  | writeByte d => exact Laws.WordFitsRow.writeByte d
  | readByte k => exact Laws.WordFitsRow.readByte k
  | primStart => exact Laws.WordFitsRow.primStart
  | primStop => exact Laws.WordFitsRow.primStop
  | primWrite d => exact Laws.WordFitsRow.primWrite d
  | primRead k => exact Laws.WordFitsRow.primRead k

theorem Instr.wellFormed_iff {hp : Bool} {i : Instr} :
    i.wellFormed hp = true ↔ (i.isHostPrimitive && !hp) = false := by
  unfold Instr.wellFormed
  cases i.isHostPrimitive <;> cases hp <;> decide

/-- An instruction the build admits is what a word of its own row decodes to: the build then admits the row. -/
theorem decodeCmd_of_fits {hp : Bool} {i : Instr} {w : CmdWord} {r : CmdRow} (hsel : r.selects w = true)
    (hinstr : r.instr w = i) (hhost : r.isHostPrimitive = i.isHostPrimitive) (hwf : i.wellFormed hp = true) :
    decodeCmd hp w = .legal i := by
  have hadmit : (r.isHostPrimitive && !hp) = false := hhost ▸ Instr.wellFormed_iff.1 hwf
  rw [decodeCmd_of_selects hp hsel, hadmit, hinstr]
  rfl

/-- Settles O8: the word fits its instruction's row, and the decoder finds the row that a word selects. -/
theorem decodeOfEncodeIsTheInstruction : Obligations.DecodeOfEncodeIsTheInstruction := by
  intro hp i hwf
  have hfits := wordFitsRow i
  unfold Laws.WordFitsRow.Statement at hfits
  cases hw : encode i with
  | cmd w =>
    rw [hw] at hfits
    obtain ⟨r, hsel, hinstr, hhost⟩ := hfits
    exact decodeCmd_of_fits hsel hinstr hhost hwf
  | prim w =>
    rw [hw] at hfits
    exact congrArg Decoded.legal hfits.1

/-- Settles O10: a word has one opcode, and the opcodes of the rows differ. -/
theorem rowsArePairwiseDisjoint : Obligations.RowsArePairwiseDisjoint := fun _ _ _ h h' =>
  CmdRow.opcode_injective ((CmdRow.opcode_of_selects h).symm.trans (CmdRow.opcode_of_selects h'))

/-! ### The fields of a word that selects a row -/

/-- Where a row's mask covers a field, the field has the value of the row's pattern. -/
theorem CmdRow.field_of_selects {r : CmdRow} {w : CmdWord} (h : r.selects w = true) {start len : Nat}
    (hm : r.mask.extractLsb' start len = BitVec.allOnes len) :
    w.extractLsb' start len = r.pattern.extractLsb' start len := by
  have hw : w &&& r.mask = r.pattern := by simpa [CmdRow.selects] using h
  rw [← hw, BitVec.extractLsb'_and, hm, BitVec.and_allOnes]

/-- Every row's mask covers the five bits that no field uses (R81, R83). -/
theorem CmdRow.unused_bits_of_selects {r : CmdRow} {w : CmdWord} (h : r.selects w = true) :
    w.extractLsb' 27 1 = 0 ∧ w.extractLsb' 16 4 = 0 := by
  refine ⟨(CmdRow.field_of_selects h ?_).trans ?_, (CmdRow.field_of_selects h ?_).trans ?_⟩ <;>
    cases r <;> decide

/-- A word is its four fields when its unused bits are 0 (R81). -/
theorem cmdWord_fields {w : CmdWord} (h₁ : w.extractLsb' 27 1 = 0) (h₂ : w.extractLsb' 16 4 = 0) :
    cmdWord (fieldOpc w) (fieldA7 w) (fieldTxl w) (fieldRxc w) = w := by
  rw [cmdWord, fieldOpc, fieldA7, fieldTxl, fieldRxc, ← h₁, ← h₂]
  simp only [BitVec.extractLsb'_append_extractLsb'_eq_extractLsb', BitVec.extractLsb'_eq_self]

/-- A word that selects a row is put together from the row's opcode and its three operand fields. -/
theorem CmdRow.word_of_selects {r : CmdRow} {w : CmdWord} (h : r.selects w = true) :
    w = cmdWord r.opcode (fieldA7 w) (fieldTxl w) (fieldRxc w) := by
  obtain ⟨h₁, h₂⟩ := CmdRow.unused_bits_of_selects h
  rw [← CmdRow.opcode_of_selects h, cmdWord_fields h₁ h₂]

/-- A byte with bits 7:1 at 0 is the byte of an AckDecision (R87). -/
theorem ackByte_of_bit_zero {b : Byte} (h : b.extractLsb' 1 7 = 0) : ackByte (Ack.ofBit (b.getLsbD 0)) = b := by
  revert h; revert b; decide

/-- A word that selects a row is the word of the row's instruction (R83). -/
theorem CmdRow.encode_instr {r : CmdRow} {w : CmdWord} (h : r.selects w = true) : encode (r.instr w) = .cmd w := by
  have hw := CmdRow.word_of_selects h
  have hfield {start len : Nat} := CmdRow.field_of_selects h (start := start) (len := len)
  conv_rhs => rw [hw]
  cases r with
  | init | start | stop =>
    rw [fieldA7, fieldTxl, fieldRxc, hfield (by decide), hfield (by decide), hfield (by decide)]
    rfl
  | writeBurst => rw [fieldRxc, hfield (by decide)]; rfl
  | readBurst => rw [fieldTxl, hfield (by decide)]; rfl
  | writeThenRead => rfl
  | writeByte => rw [fieldA7, fieldTxl, hfield (by decide), hfield (by decide)]; rfl
  | readByte =>
    have hbit : (fieldRxc w).getLsbD 0 = w.getLsbD 0 := by simp [fieldRxc]
    have hhigh : (fieldRxc w).extractLsb' 1 7 = w.extractLsb' 1 7 := by
      ext i hi
      simp [fieldRxc]
    have hzero : (fieldRxc w).extractLsb' 1 7 = 0 := hhigh.trans (hfield (by decide))
    rw [← ackByte_of_bit_zero hzero, hbit, fieldA7, fieldTxl, hfield (by decide), hfield (by decide)]
    rfl

theorem CmdRow.instr_isHostPrimitive (r : CmdRow) (w : CmdWord) :
    (r.instr w).isHostPrimitive = r.isHostPrimitive := by
  cases r <;> rfl

/-- A word that decodes to an instruction selects the instruction's row, and the build admits it. -/
theorem selects_of_decodeCmd {hp : Bool} {w : CmdWord} {i : Instr} (h : decodeCmd hp w = .legal i) :
    ∃ r : CmdRow, r.selects w = true ∧ i = r.instr w ∧ i.wellFormed hp = true := by
  by_cases hnone : ∀ r : CmdRow, r.selects w = false
  · obtain ⟨why, hwhy⟩ := decodeCmd_of_no_row hp hnone
    exact absurd (h.symm.trans hwhy) nofun
  · obtain ⟨r, hr⟩ := not_forall.1 hnone
    have hsel : r.selects w = true := by simpa using hr
    rw [decodeCmd_of_selects hp hsel] at h
    split at h
    · exact absurd h nofun
    next hadmit =>
      obtain rfl := Decoded.legal.inj h
      refine ⟨r, hsel, rfl, Instr.wellFormed_iff.2 ?_⟩
      rw [CmdRow.instr_isHostPrimitive]
      exact Bool.eq_false_iff.2 hadmit

/-- A request word of the sequencer has the fields its row does not use at 0 (R84). -/
theorem encode_requestWord {s : State} {w : PrimWord} (h : s.requestWord = some w) :
    encode (decodePrim w) = .prim w := by
  unfold State.requestWord at h
  split at h
  · rw [← Option.some.inj h, decodePrim_start]; rfl
  · rw [← Option.some.inj h, decodePrim_stop]; rfl
  · rw [← Option.some.inj h, decodePrim_write]; rfl
  · rw [← Option.some.inj h, decodePrim_read]; rfl
  · exact absurd h nofun

/-- A legal command word is the word of its instruction (R83, R94). -/
theorem encode_of_decodeCmd {hp : Bool} {w : CmdWord} {i : Instr} (h : decodeCmd hp w = .legal i) :
    encode i = .cmd w ∧ i.wellFormed hp = true := by
  obtain ⟨r, hsel, rfl, hwf⟩ := selects_of_decodeCmd h
  exact ⟨CmdRow.encode_instr hsel, hwf⟩

/-- Settles O9, from the row that a legal word selects and the form of the sequencer's words. -/
theorem legalWordIsTheEncoding : Obligations.LegalWordIsTheEncoding :=
  ⟨fun _ _ _ => encode_of_decodeCmd, fun _ _ => encode_requestWord⟩

/-! ### Illegal words -/

/-- A word with a reserved opcode selects no row and shares no row's opcode (R82, R89 a). -/
theorem decodeCmd_reserved {w : CmdWord} (hp : Bool) (h : ∀ r : CmdRow, fieldOpc w ≠ r.opcode) :
    decodeCmd hp w = .illegal (.reservedOpcode (fieldOpc w)) := by
  have hsel : CmdRow.all.find? (fun r => r.selects w) = none :=
    CmdRow.find_none fun r => Bool.eq_false_iff.2 fun hr => h r (CmdRow.opcode_of_selects hr)
  have hopc : CmdRow.all.find? (fun r => r.opcode == fieldOpc w) = none :=
    List.find?_eq_none.2 fun r _ => by simpa using (h r).symm
  simp only [decodeCmd, hsel, hopc]

/-- The loop of R94 finds the row with the word's opcode. -/
theorem CmdRow.find_of_opcode {r : CmdRow} {w : CmdWord} (h : fieldOpc w = r.opcode) :
    CmdRow.all.find? (fun q => q.opcode == fieldOpc w) = some r := by
  cases hf : CmdRow.all.find? (fun q => q.opcode == fieldOpc w) with
  | none => exact absurd (by simp [h]) (List.find?_eq_none.1 hf r r.mem_all)
  | some q =>
    have hq : q.opcode = fieldOpc w := by simpa using List.find?_some hf
    rw [CmdRow.opcode_injective (hq.trans h)]

/-- A word with a row's opcode that the row does not select has a must-be-zero bit that is 1 (R89 b). -/
theorem decodeCmd_mustBeZero {w : CmdWord} {r : CmdRow} (hp : Bool) (hopc : fieldOpc w = r.opcode)
    (h : w &&& r.mask ≠ r.pattern) : decodeCmd hp w = .illegal (.mustBeZeroBitSet r) := by
  have hsel : CmdRow.all.find? (fun q => q.selects w) = none := by
    refine CmdRow.find_none fun q => Bool.eq_false_iff.2 fun hq => h ?_
    obtain rfl : q = r := CmdRow.opcode_injective ((CmdRow.opcode_of_selects hq).symm.trans hopc)
    simpa [CmdRow.selects] using hq
  simp only [decodeCmd, hsel, CmdRow.find_of_opcode hopc]

/-- A word is illegal exactly when it selects no row, or a row that the build does not admit (R89). -/
theorem illegal_iff {hp : Bool} {w : CmdWord} : (∃ why, decodeCmd hp w = .illegal why) ↔
    (∀ r : CmdRow, r.selects w = false) ∨
      ∃ r : CmdRow, r.selects w = true ∧ r.isHostPrimitive = true ∧ hp = false := by
  by_cases hnone : ∀ r : CmdRow, r.selects w = false
  · exact iff_of_true (decodeCmd_of_no_row hp hnone) (.inl hnone)
  · obtain ⟨r, hr⟩ := not_forall.1 hnone
    have hsel : r.selects w = true := by simpa using hr
    rw [decodeCmd_of_selects hp hsel, or_iff_right hnone]
    constructor
    · rintro ⟨why, h⟩
      split at h
      next hadmit => exact ⟨r, hsel, by simpa using hadmit⟩
      · exact absurd h nofun
    · rintro ⟨q, hq, hhost, rfl⟩
      obtain rfl := rowsArePairwiseDisjoint w r q hsel hq
      exact ⟨.hostPrimitivesOff r, by rw [hhost]; rfl⟩

/-- An idle block with an illegal word on its port has no step (R89). -/
theorem step_illegal {s : State} {w : CmdWord} {why : IllegalWord} (hr : s.rst = false) (hs : s.seq = .idle)
    (hw : s.cmdPort = some w) (hd : decodeCmd s.params.hostPrimitives w = .illegal why) :
    step s = .refused (.illegalWord why) := by
  simp [step, fetch, hr, hs, hw, hd, thenEnvironment]

/-- Settles O5, with the fetch of an idle block for the refusal. -/
theorem illegalWordIsRefused : Obligations.IllegalWordIsRefused := by
  refine ⟨fun hp w => illegal_iff, fun hp w h => decodeCmd_reserved hp fun r hr => ?_,
    fun hp w r => decodeCmd_mustBeZero hp, fun _ _ _ => step_illegal⟩
  rw [hr] at h
  revert h
  cases r <;> decide

/-- Settles O7, by evaluating the decoder on the twelve words. -/
theorem sampleWordsDecode : Obligations.SampleWordsDecode := by
  refine ⟨?_, ?_, ?_, ?_, ?_, ?_, ?_, ?_, ?_, ?_, ?_, ?_⟩ <;> decide

end Sys2Proof
end

section
/-! The invariants of either build (R41, R205), kept by every step: each step of the block keeps them, and the moves
of the other agents touch none of the registers they speak of. -/

namespace Sys2Proof.Machine

/-! ### What a state of the sequencer asks of the bus-level state and of the index (R41 b to f) -/

/-- The clauses (b) to (f) of R41 for a state of the sequencer with this bus-level state, index and counts. -/
def Seq.Fits (q : Seq) (p : Phase) (i txlen rxcnt : Count) : Prop :=
  match q with
  | .idle => True
  | .start => p = .idle
  | .addrW => p = .address
  | .tx => p = .data ∧ i < txlen
  | .rstart => p = .data
  | .addrR => p = .address
  | .rx => p = .data ∧ i < rxcnt
  | .stop => p = .data
  | .prim => True

/-- The clauses (b) to (f) of R41, as both invariants have them. -/
theorem Seq.fits_iff {q : Seq} {p : Phase} {i txlen rxcnt : Count} : q.Fits p i txlen rxcnt ↔
    (q = .start → p = .idle) ∧ (q = .addrW ∨ q = .addrR → p = .address) ∧
      (q = .tx ∨ q = .rstart ∨ q = .rx ∨ q = .stop → p = .data) ∧ (q = .tx → i < txlen) ∧ (q = .rx → i < rxcnt) := by
  cases q <;> simp [Seq.Fits]

/-- The state fits its registers. -/
def State.Fits (s : State) : Prop := s.seq.Fits s.phase s.idx s.txlen s.rxcnt

theorem State.sequencerInvariant_iff {s : State} : s.SequencerInvariant ↔
    s.Fits ∧ (s.seq = .idle → s.phase = .idle ∧ s.pstep = .issue) ∧ (s.seq = .stop → s.pstep = .issue) ∧
      s.seq ≠ .prim := by
  rw [State.Fits, Seq.fits_iff]
  constructor
  · rintro ⟨hidle, hstart, haddr, hdata, htx, hrx, hstop, hprim⟩
    exact ⟨⟨hstart, haddr, hdata, htx, hrx⟩, hidle, hstop, hprim⟩
  · rintro ⟨⟨hstart, haddr, hdata, htx, hrx⟩, hidle, hstop, hprim⟩
    exact ⟨hidle, hstart, haddr, hdata, htx, hrx, hstop, hprim⟩

theorem State.coherent_iff {s : State} : s.Coherent ↔
    s.Fits ∧ (s.seq = .idle → s.pstep = .issue) ∧ (s.primitive = some .stop → s.pstep = .issue) ∧
      (s.seq = .prim → ∃ k p, s.primitive = some k ∧ phaseAfter s.phase k = some p) ∧
      (s.seq ≠ .idle ∨ s.phase ≠ .idle → s.inited = true) := by
  rw [State.Fits, Seq.fits_iff]
  constructor
  · rintro ⟨hidle, hstart, haddr, hdata, htx, hrx, hstop, hprim, hinit⟩
    exact ⟨⟨hstart, haddr, hdata, htx, hrx⟩, hidle, hstop, hprim, hinit⟩
  · rintro ⟨⟨hstart, haddr, hdata, htx, hrx⟩, hidle, hstop, hprim, hinit⟩
    exact ⟨hidle, hstart, haddr, hdata, htx, hrx, hstop, hprim, hinit⟩

/-- The choice of R166 enters a loop only below its count, and every choice is a state of the open frame. -/
theorem nextDataState_fits (o : Opcode) (txlen rxcnt : Count) (d : Dir) (i : Count) :
    (nextDataState o txlen rxcnt d i).Fits .data i txlen rxcnt := by
  cases d with
  | write =>
    simp only [nextDataState]
    split_ifs with htx hop
    · exact ⟨rfl, htx⟩
    · exact rfl
    · exact rfl
  | read =>
    simp only [nextDataState]
    split_ifs with hrx
    · exact ⟨rfl, hrx⟩
    · exact rfl

theorem nextDataState_ne (o : Opcode) (txlen rxcnt : Count) (d : Dir) (i : Count) :
    nextDataState o txlen rxcnt d i ≠ .idle ∧ nextDataState o txlen rxcnt d i ≠ .prim := by
  cases d <;> simp only [nextDataState] <;> split_ifs <;> decide

/-- The move of R165 at the completion of a Start leads to a state of the address phase. -/
theorem State.nextSeq_fits_of_start {s : State} (hk : s.primitive = some .start) :
    s.nextSeq.Fits .address s.nextIdx s.txlen s.rxcnt := by
  rcases State.seq_of_start hk with hs | hs | hs
  · simp only [State.nextSeq, hs]
    split <;> exact rfl
  · simp only [State.nextSeq, hs]; exact rfl
  · simp only [State.nextSeq, hs]; trivial

/-- The move of R165 at the completion of a byte leads to a state of the data phase. -/
theorem State.nextSeq_fits_of_byte {s : State} (hk : s.primitive = some .write ∨ s.seq = .rx) :
    s.nextSeq.Fits .data s.nextIdx s.txlen s.rxcnt := by
  have hs : s.seq = .addrW ∨ s.seq = .addrR ∨ s.seq = .tx ∨ s.seq = .prim ∨ s.seq = .rx := by
    rcases hk with hk | hs
    · rcases State.seq_of_write hk with hs | hs | hs | hs <;> simp [hs]
    · simp [hs]
  rcases hs with hs | hs | hs | hs | hs
  · simp only [State.nextSeq, State.nextIdx, hs]; exact nextDataState_fits ..
  · simp only [State.nextSeq, State.nextIdx, hs]; exact nextDataState_fits ..
  · simp only [State.nextSeq, State.nextIdx, hs]; exact nextDataState_fits ..
  · simp only [State.nextSeq, hs]; trivial
  · simp only [State.nextSeq, State.nextIdx, hs]; exact nextDataState_fits ..

/-- No completion enters SEQ_PRIM (R165, R121). -/
theorem State.nextSeq_ne_prim (s : State) : s.nextSeq ≠ .prim := by
  cases hs : s.seq with
  | start => simp only [State.nextSeq, hs]; split <;> decide
  | addrW | tx | addrR | rx => simp only [State.nextSeq, hs]; exact (nextDataState_ne ..).2
  | idle | rstart | prim | stop => simp [State.nextSeq, hs]

/-- A completion ends a command only for a host-issued primitive (R165, R121). -/
theorem State.nextSeq_ne_idle {s : State} (hidle : s.seq ≠ .idle) (hprim : s.seq ≠ .prim) : s.nextSeq ≠ .idle := by
  cases hs : s.seq with
  | start => simp only [State.nextSeq, hs]; split <;> decide
  | addrW | tx | addrR | rx => simp only [State.nextSeq, hs]; exact (nextDataState_ne ..).1
  | rstart | stop => simp [State.nextSeq, hs]
  | idle => exact absurd hs hidle
  | prim => exact absurd hs hprim

theorem BlockStep.keeps_fits {s u : State} (h : BlockStep s u) (hf : s.Fits) : u.Fits := by
  cases h with
  | reset => trivial
  | idle => exact hf
  | command _ _ _ _ h =>
    cases h with
    | init => exact hf
    | transaction _ _ hp => exact hp
    | hostPrimitive => trivial
  | issue _ _ h _ =>
    cases h with
    | stop => trivial
    | start | write | read => exact hf
  | wait _ _ hk h =>
    cases h with
    | hold => exact hf
    | startDone => exact State.nextSeq_fits_of_start hk
    | writeDone => exact State.nextSeq_fits_of_byte (.inl hk)
    | received _ _ hs => exact State.nextSeq_fits_of_byte (.inr hs)
    | responded => trivial

/-! ### The invariants -/

/-- The host primitive that an acceptance latches is the one that `SEQ_PRIM` then names (R121). -/
theorem HostForm.primitive_afterAcceptPrim {i : Instr} {o : Opcode} {k : Prim} {rxc : Count} (h : HostForm i o k rxc)
    (s : State) : (s.afterAcceptPrim o rxc).primitive = some k := by
  cases h <;> rfl

theorem BlockStep.keeps_coherent {s u : State} (h : BlockStep s u) (hc : s.Coherent) : u.Coherent := by
  obtain ⟨hfits, hidle, hstop, hprim, hinit⟩ := State.coherent_iff.1 hc
  refine State.coherent_iff.2 ⟨h.keeps_fits hfits, ?_⟩
  cases h with
  | reset => exact ⟨fun _ => rfl, fun _ => rfl, nofun, by simp⟩
  | idle => exact ⟨hidle, hstop, hprim, hinit⟩
  | command _ _ _ _ h =>
    cases h with
    | init hp => exact ⟨hidle, hstop, hprim, fun _ => rfl⟩
    | transaction _ hn _ => exact ⟨nofun, fun _ => rfl, nofun, fun _ => hn⟩
    | hostPrimitive hi _ hn hp =>
      exact ⟨nofun, fun _ => rfl, fun _ => ⟨_, _, hi.primitive_afterAcceptPrim s, hp⟩, fun _ => hn⟩
  | issue _ hs h _ =>
    cases h with
    | stop hk => exact ⟨fun _ => hs, nofun, nofun, fun _ => hinit (.inl (State.seq_ne_idle hk))⟩
    | start hk | write _ hk | read _ hk =>
      have hbusy := State.seq_ne_idle hk
      exact ⟨fun hs => absurd hs hbusy, fun hstop => absurd (hk.symm.trans hstop) (by decide), hprim, hinit⟩
  | wait _ _ hk h =>
    have hinit' : s.inited = true := hinit (.inl (State.seq_ne_idle hk))
    cases h with
    | hold hne =>
      exact ⟨hidle, fun hstop => absurd (Option.some.inj (hk.symm.trans hstop)) hne, hprim, hinit⟩
    | startDone | writeDone | received =>
      exact ⟨fun _ => rfl, fun _ => rfl, fun hs => absurd hs s.nextSeq_ne_prim, fun _ => hinit'⟩
    | responded => exact ⟨fun _ => rfl, fun _ => rfl, nofun, fun _ => hinit'⟩

/-- Settles O34: each step of the block keeps coherence, and the moves that follow change no register of the block. -/
theorem coherenceIsKept : Obligations.CoherenceIsKept := by
  intro s t hc h
  obtain ⟨u, rfl, hu⟩ := step_cases h
  refine (hu.keeps_coherent hc).congr ?_ ?_ ?_ ?_ ?_ ?_ ?_ ?_ <;> simp

/-- No step of the block writes a build parameter (R96). -/
theorem BlockStep.params_same {s u : State} (h : BlockStep s u) : u.params = s.params := by
  cases h with
  | reset | idle => rfl
  | command _ _ _ _ h => cases h <;> rfl
  | issue _ _ h _ => cases h <;> rfl
  | wait _ _ _ h => cases h <;> rfl

theorem BlockStep.keeps_sequencerInvariant {s u : State} (h : BlockStep s u)
    (hh : s.params.hostPrimitives = false) (hi : s.SequencerInvariant) : u.SequencerInvariant := by
  obtain ⟨hfits, hidle, hstop, hprim⟩ := State.sequencerInvariant_iff.1 hi
  refine State.sequencerInvariant_iff.2 ⟨h.keeps_fits hfits, ?_⟩
  cases h with
  | reset => exact ⟨fun _ => ⟨rfl, rfl⟩, nofun, nofun⟩
  | idle => exact ⟨hidle, hstop, hprim⟩
  | command _ _ _ _ h =>
    cases h with
    | init => exact ⟨hidle, hstop, hprim⟩
    | transaction => exact ⟨nofun, nofun, nofun⟩
    | hostPrimitive _ hh' => exact absurd (hh.symm.trans hh') nofun
  | issue _ hs h _ =>
    cases h with
    | stop => exact ⟨fun _ => ⟨rfl, hs⟩, nofun, nofun⟩
    | start hk | write _ hk | read _ hk =>
      have hbusy := State.seq_ne_idle hk
      have hnotStop : s.seq ≠ .stop := fun hs => by simp [State.primitive, hs] at hk
      exact ⟨fun hs => absurd hs hbusy, fun hs => absurd hs hnotStop, hprim⟩
  | wait _ _ hk h =>
    have hbusy := State.seq_ne_idle hk
    cases h with
    | hold => exact ⟨hidle, hstop, hprim⟩
    | startDone | writeDone | received =>
      exact ⟨fun hs => absurd hs (State.nextSeq_ne_idle hbusy hprim), fun _ => rfl, s.nextSeq_ne_prim⟩
    | responded _ _ hs => exact absurd hs hprim

/-- Settles O33: each step of the block keeps (a) to (g), and the moves that follow change no register of the
block. -/
theorem sequencerInvariantIsKept : Obligations.SequencerInvariantIsKept := by
  intro s t hh hi h
  obtain ⟨u, rfl, hu⟩ := step_cases h
  refine ⟨?_, by rw [State.envStep_params, hu.params_same, hh]⟩
  refine (hu.keeps_sequencerInvariant hh hi).congr ?_ ?_ ?_ ?_ ?_ ?_ <;> simp

/-! ### The discipline of triggers (R222) -/

/-- The discipline of triggers at P_ISSUE. -/
theorem State.TriggerDiscipline.of_issue {s : State} (hs : s.pstep = .issue) (hq : s.periph.quietBus)
    (hframe : s.phase ≠ .idle → s.periph.inFlight = none) (hstart : s.periph.fStart = false)
    (hstop : s.periph.inFlight = none → s.periph.fStop = false) : s.TriggerDiscipline :=
  ⟨fun _ => hs, fun _ => hq, fun _ => hframe, fun _ => hstart, fun _ => hstop,
    fun h => absurd (hs.symm.trans h) nofun, fun h => absurd (hs.symm.trans h) nofun⟩

/-- The discipline of triggers right after the trigger of a blocking phase. -/
theorem State.TriggerDiscipline.of_triggered {s : State} (hs : s.pstep = .wait) (hbusy : s.seq ≠ .idle)
    (hd : s.periph.fDone = false)
    (hf : s.periph.inFlight = some .startCondition ∨
      ((s.periph.inFlight = some .receive ∨ ∃ b, s.periph.inFlight = some (.transmit b)) ∧
        s.periph.fStart = false ∧ s.periph.fStop = false)) : s.TriggerDiscipline :=
  ⟨fun h => absurd h hbusy, fun h => absurd (hs.symm.trans h) nofun, fun h => absurd (hs.symm.trans h) nofun,
    fun h => absurd (hs.symm.trans h) nofun, fun h => absurd (hs.symm.trans h) nofun,
    fun _ h => absurd (hd.symm.trans h) nofun, fun _ _ => hf⟩

/-- With no START or STOP requested a trigger starts a byte (R218). -/
theorem Periph.bytePhase_byte {p : Periph} (h₁ : p.fStart = false) (h₂ : p.fStop = false) (d : Byte) :
    p.bytePhase d = .receive ∨ ∃ b, p.bytePhase d = .transmit b := by
  simp only [Periph.bytePhase, h₁, h₂, Bool.false_eq_true, if_false]
  split
  · exact .inl rfl
  · exact .inr ⟨d, rfl⟩

/-- Inside a frame no request stands at P_ISSUE, so that a byte is what the trigger then starts. -/
theorem State.TriggerDiscipline.bytePhase_byte {s : State} (h : s.TriggerDiscipline) (hs : s.pstep = .issue)
    (hp : s.phase ≠ .idle) (d : Byte) :
    (some (s.periph.bytePhase d) = some BusPhase.receive ∨ ∃ b, some (s.periph.bytePhase d) = some (.transmit b)) ∧
      s.periph.fStart = false ∧ s.periph.fStop = false := by
  have hstart := h.issue_no_start hs
  have hstop := h.issue_no_stop hs (h.issue_frame hs hp)
  exact ⟨by simpa using Periph.bytePhase_byte hstart hstop d, hstart, hstop⟩

theorem BlockStep.keeps_triggerDiscipline {s u : State} (h : BlockStep s u)
    (hrst : s.rst = true → s.seq = .idle ∧ s.phase = .idle) (hd : s.TriggerDiscipline) : u.TriggerDiscipline := by
  cases h with
  | reset hr =>
    obtain ⟨hs, hp⟩ := hrst hr
    have hperiph : s.resetStep.periph = s.periph := by simp [State.resetStep, State.midFrame, hs, hp]
    exact hd.congr hs.symm hp.symm (hd.idle_issues hs).symm hperiph
  | idle => exact hd.congr rfl rfl rfl rfl
  | command _ hs _ _ h =>
    have hissue := hd.idle_issues hs
    cases h with
    | init =>
      exact .of_issue hissue (hd.issue_quiet hissue) (hd.issue_frame hissue) (hd.issue_no_start hissue)
        (hd.issue_no_stop hissue)
    | transaction | hostPrimitive =>
      exact .of_issue rfl (hd.issue_quiet hissue) (hd.issue_frame hissue) (hd.issue_no_start hissue)
        (hd.issue_no_stop hissue)
  | issue _ hs h _ =>
    cases h with
    | start hk => exact .of_triggered rfl (State.seq_ne_idle hk) rfl (.inl rfl)
    | stop =>
      have hflight : s.afterStop.periph.inFlight = some .stopCondition := by
        simp [State.afterStop, hd.issue_no_start hs]
      exact .of_issue hs (.inr hflight) (absurd rfl) (hd.issue_no_start hs)
        fun hnone => absurd (hflight.symm.trans hnone) nofun
    | write d hk hp =>
      exact .of_triggered rfl (State.seq_ne_idle hk) rfl
        (.inr (hd.bytePhase_byte hs (by rcases hp with hp | hp <;> simp [hp]) d))
    | read k hk hp =>
      exact .of_triggered rfl (State.seq_ne_idle hk) rfl (.inr (hd.bytePhase_byte hs (by simp [hp]) _))
  | wait _ hs _ h =>
    cases h with
    | hold => exact hd.congr rfl rfl rfl rfl
    | startDone hdone | writeDone hdone | received hdone | responded hdone =>
      obtain ⟨hflight, hstart, hstop⟩ := hd.wait_done hs hdone
      exact .of_issue rfl (.inl hflight) (fun _ => hflight) hstart fun _ => hstop

/-- Settles O35: each step of the block keeps the discipline, and no move of the other agents breaks it. -/
theorem triggerDisciplineIsKept : Obligations.TriggerDisciplineIsKept := by
  intro s t hrst hd h
  obtain ⟨u, rfl, hu⟩ := step_cases h
  exact (hu.keeps_triggerDiscipline hrst hd).envStep

/-! ### The caller's views -/

/-- Both views are in canonical form. -/
def State.ViewsCanonical (s : State) : Prop := Memory.wf s.tx ∧ Memory.wf s.rx

theorem State.ViewsCanonical.envMove {s : State} (h : s.ViewsCanonical) (m : EnvMove) :
    (s.envMove m).ViewsCanonical := by
  cases m with
  | present | withdraw | setRst | takeRequest | phaseDone | stopDriven => exact h
  | passTxView bytes => exact ⟨Memory.wf_ofBytes bytes, h.2⟩
  | passRxView => exact ⟨h.1, List.Pairwise.nil, nofun⟩
  | storeTx i b => exact ⟨Memory.wf_write h.1 i.isLt b, h.2⟩
  | storeRx i b =>
    simp only [State.envMove]
    split
    · exact ⟨h.1, Memory.wf_write h.2 i.isLt b⟩
    · exact h

theorem BlockStep.keeps_viewsCanonical {s u : State} (h : BlockStep s u) (hv : s.ViewsCanonical) :
    u.ViewsCanonical := by
  cases h with
  | reset | idle => exact hv
  | command _ _ _ _ h => cases h <;> exact hv
  | issue _ _ h _ => cases h <;> exact hv
  | wait _ _ _ h =>
    cases h with
    | received => exact ⟨hv.1, Memory.wf_write hv.2 s.idx.isLt _⟩
    | hold | startDone | writeDone | responded => exact hv

/-- Settles O37, from the steps of the block and the moves of the other agents. -/
theorem viewsStayCanonical : Obligations.ViewsStayCanonical := by
  intro s t htx hrx h
  obtain ⟨u, rfl, hu⟩ := step_cases h
  exact State.envStep_induct (P := State.ViewsCanonical) (fun _ m h => h.envMove m) (fun _ _ h => h)
    (hu.keeps_viewsCanonical ⟨htx, hrx⟩)

/-- Settles O36: after reset the sequencer is idle at P_ISSUE, the peripheral is as after power-on, and no byte of a
view is written. -/
theorem resetMeetsTheInvariants : Obligations.ResetMeetsTheInvariants := by
  refine ⟨State.sequencerInvariant_iff.2 ⟨trivial, fun _ => ⟨rfl, rfl⟩, nofun, nofun⟩,
    State.coherent_iff.2 ⟨trivial, fun _ => rfl, nofun, nofun, by simp [State.reset]⟩,
    .of_issue rfl (.inl rfl) (absurd rfl) rfl fun _ => rfl, rfl, ?_, ?_⟩ <;>
    exact ⟨List.Pairwise.nil, nofun⟩

end Sys2Proof.Machine
end

section
/-! The AckDecision over a read phase (R142 to R146) and the table of R111. -/

namespace Sys2Proof.Machine

/-! ### The acknowledge -/

theorem ackDecision_eq_nack {i c : Count} : ackDecision i c = .nack ↔ i = c - 1 := by
  unfold ackDecision
  split_ifs with h
  · exact iff_of_true rfl h
  · exact iff_of_false nofun h

theorem ackDecision_eq_ack {i c : Count} : ackDecision i c = .ack ↔ i ≠ c - 1 := by
  rw [ne_eq, ← ackDecision_eq_nack]
  cases ackDecision i c <;> simp

/-- For a count of at least 1 the subtraction of R142 does not wrap. -/
theorem Count.eq_sub_one_iff {i c : Count} (hc : c ≠ 0) : i = c - 1 ↔ i.toNat + 1 = c.toNat := by
  have hpos : c.toNat ≠ 0 := fun h => hc (BitVec.eq_of_toNat_eq h)
  bv_omega

theorem Count.ne_zero_of_lt {i c : Count} (h : i < c) : c ≠ 0 := by
  rintro rfl
  exact absurd h (BitVec.not_lt_zero)

/-- Settles O12: R143's form counts in natural numbers, R145's counts down. -/
theorem ackDecisionIsNackForTheLastByte : Obligations.AckDecisionIsNackForTheLastByte := by
  refine ⟨fun i c h => ?_, by decide⟩
  simp only [ackDecision_eq_nack, Count.eq_sub_one_iff (Count.ne_zero_of_lt h), true_and]
  have hlt : i.toNat < c.toNat := h
  bv_omega

/-- Settles O13: of the indices below the count the last is NACKed and the others are ACKed. -/
theorem ackSequenceEndsInOneNack : Obligations.AckSequenceEndsInOneNack := by
  intro c hc
  obtain ⟨n, hn⟩ : ∃ n, c.toNat = n + 1 := Nat.exists_eq_succ_of_ne_zero fun h => hc (BitVec.eq_of_toNat_eq h)
  have hlt : n + 1 < 2 ^ 8 := hn ▸ c.isLt
  have hindex {i : Nat} (hi : i ≤ n) : BitVec.ofNat 8 i = c - 1 ↔ i = n := by
    rw [Count.eq_sub_one_iff hc, BitVec.toNat_ofNat, Nat.mod_eq_of_lt (by omega), hn]
    omega
  have hack : (List.range n).map (fun i => ackDecision (BitVec.ofNat 8 i) c) = List.replicate n Ack.ack := by
    refine List.eq_replicate_iff.2 ⟨by simp, ?_⟩
    rintro k hk
    obtain ⟨i, hi, rfl⟩ := List.mem_map.1 hk
    have hi : i < n := List.mem_range.1 hi
    exact ackDecision_eq_ack.2 fun h => hi.ne ((hindex hi.le).1 h)
  have hnack : ackDecision (BitVec.ofNat 8 n) c = .nack := ackDecision_eq_nack.2 ((hindex le_rfl).2 rfl)
  rw [hn, List.range_succ, List.map_append, hack]
  simp [hnack]

/-! ### The bus-phase table -/

/-- A primitive requested in a phase whose pair is not in the table of R111 is refused (R122). -/
theorem onRequestPort_outside {s : State} {k : Prim} (issue : Result) (hr : s.rst = false) (hs : s.pstep = .issue)
    (hk : s.primitive = some k) (hp : phaseAfter s.phase k = none) :
    onRequestPort k s issue = .refused .outsideBusPhaseMachine := by
  simp [onRequestPort, hr, hk, hs, hp]

/-- Settles O14, from the table row by row. -/
theorem primitiveOutsideTheTableIsRefused : Obligations.PrimitiveOutsideTheTableIsRefused := by
  refine ⟨fun p k q => ?_, fun s hr hs => ⟨fun hk hp => ?_, fun hk hp => ?_, fun d hk hp => ?_, fun a hk hp => ?_⟩⟩
  · cases k with
    | start => cases p <;> simp
    | stop => simp
    | write => cases p <;> simp
    | read => simp
  · exact onRequestPort_outside _ hr hs hk (by rw [hp]; rfl)
  · exact onRequestPort_outside _ hr hs hk (phaseAfter_stop_none hp)
  · exact onRequestPort_outside _ hr hs hk (by rw [hp]; rfl)
  · exact onRequestPort_outside _ hr hs hk (phaseAfter_read_none hp)

end Sys2Proof.Machine
end

section
/-! Reset and the fetch (R230, R231, R161), and the acceptance of the commands (R161, R201, R205, R121). -/

namespace Sys2Proof.Machine

/-! ### Reset and the fetch -/

theorem State.SameViews.refl (s : State) : s.SameViews s := ⟨fun _ => rfl, fun _ => rfl, rfl⟩
theorem State.SameSurroundings.refl (s : State) : s.SameSurroundings s := ⟨rfl, rfl, rfl⟩

/-- Equal data of the views read alike. -/
theorem State.SameViews.of_eq {s t : State} (h₁ : t.tx = s.tx) (h₂ : t.rx = s.rx) (h₃ : t.rxCap = s.rxCap) :
    s.SameViews t := ⟨fun _ => by rw [h₁], fun _ => by rw [h₂], h₃⟩

/-- The step of an idle block with no command presented (R231). -/
theorem step_idle {s : State} (hr : s.rst = false) (hs : s.seq = .idle) (hw : s.cmdPort = none) :
    step s = .next s.idleStep.envStep := by
  simp [step, fetch, hr, hs, hw, thenEnvironment]

/-- Settles O1: the values of R40 by evaluation, and the idle step. -/
theorem resetIsIdleAndReady : Obligations.ResetIsIdleAndReady :=
  ⟨rfl, rfl, rfl, rfl, rfl, rfl, rfl, rfl, rfl, rfl, fun _ => step_idle⟩

/-- Settles O2: the step and the meaning of every instruction are the reset step. -/
theorem resetStepDoesNothingElse : Obligations.ResetStepDoesNothingElse := by
  intro s hr
  have hready : s.resetStep.cmdReady = false := by simp [State.cmdReady, hr]
  have hperiph (hs : s.seq = .idle) (hp : s.phase = .idle) : s.resetStep.periph = s.periph := by
    simp [State.resetStep, State.midFrame, hs, hp]
  exact ⟨s.resetStep, step_in_reset hr, exec_in_reset hr, rfl, rfl, rfl, rfl, rfl, rfl, rfl, rfl, rfl, rfl, rfl, rfl,
    rfl, rfl, rfl, hready, rfl, rfl, rfl, .of_eq rfl rfl rfl, rfl, hperiph⟩

/-- The step of an idle block with a legal word on its port (R161). -/
theorem step_command {s : State} {w : CmdWord} {i : Instr} (hr : s.rst = false) (hs : s.seq = .idle)
    (hw : s.cmdPort = some w) (hd : decodeCmd s.params.hostPrimitives w = .legal i) :
    step s = thenEnvironment (exec i s) := by
  simp [step, fetch, hr, hs, hw, hd]

/-- Settles O3: the fetch of an idle block hands a legal word on to its meaning. -/
theorem stepRunsPresentedCommand : Obligations.StepRunsPresentedCommand := fun _ _ _ => step_command

/-- Settles O4: at P_WAIT both the step and the meaning are the rest of the primitive in flight. -/
theorem stepRunsRequestedPrimitive : Obligations.StepRunsRequestedPrimitive := by
  refine ⟨fun s w hr hi hs hw => step_issue hr hi hs (by rw [hw]; rfl), fun s hr hs hk => ?_,
    fun s d hr hs hk => ?_, fun s a hr hs hk => ?_⟩
  · rw [step_wait hr hs hk, exec_wait hr hs rfl hk]
  · rw [step_wait hr hs hk, exec_wait hr hs rfl hk]
  · rw [step_wait hr hs hk, exec_wait hr hs rfl hk]

/-- A step of a busy block out of reset is the sequencer's, which leaves the command port and the latches alone
(R161, R24). -/
theorem BlockStep.busy_keeps {s u : State} (h : BlockStep s u) (hr : s.rst = false) (hs : s.seq ≠ .idle) :
    u.cmdPort = s.cmdPort ∧ s.SameLatches u := by
  cases h with
  | reset hr' => exact absurd (hr.symm.trans hr') nofun
  | idle _ hs' => exact absurd hs' hs
  | command _ hs' => exact absurd hs' hs
  | issue _ _ h _ => cases h <;> exact ⟨rfl, rfl, rfl, rfl, rfl, rfl, rfl⟩
  | wait _ _ _ h => cases h <;> exact ⟨rfl, rfl, rfl, rfl, rfl, rfl, rfl⟩

/-- Settles O6: a busy block runs the sequencer, which leaves the port and the latches alone. -/
theorem commandWaitsWhileBusy : Obligations.CommandWaitsWhileBusy := by
  intro s hr hs
  refine ⟨fun i hc => exec_command_busy hr hs hc, fun t h => ?_⟩
  obtain ⟨u, rfl, hu⟩ := step_cases h
  obtain ⟨hport, hlatches⟩ := hu.busy_keeps hr hs
  refine ⟨⟨u, rfl, hu.env_same, hport, hlatches⟩, fun henv => ?_⟩
  rw [State.envStep_nil (hu.env_same.trans henv), hport]

/-! ### The acceptances -/

/-- Settles O15: the state after the acceptance of INIT, field by field. -/
theorem initCompletesInOneStep : Obligations.InitCompletesInOneStep := fun s hr hs hp =>
  ⟨s.afterInit, execInit_accept hr hs hp, rfl, rfl, rfl, rfl, rfl, hs, rfl, rfl, rfl, rfl, rfl, rfl, rfl, rfl, rfl⟩

/-- Settles O16: the second INIT starts from a state that still meets the guard of R201. -/
theorem initIsIdempotent : Obligations.InitIsIdempotent := by
  intro s hr hs hp
  have haccept := execInit_accept hr hs hp
  refine ⟨fun hn => ⟨s.afterInit, haccept, rfl, rfl, rfl, rfl, rfl, rfl, rfl, rfl, rfl, rfl, hn.symm⟩, fun t ht => ?_⟩
  obtain rfl := Host.Outcome.next.inj (haccept.symm.trans ht)
  exact ⟨s.afterInit.afterInit, _, execInit_accept hr hs hp, rfl, rfl, rfl, rfl⟩

theorem State.acceptedTransaction_afterAccept (s : State) (o : Opcode) (a : SlaveAddr) (txl rxc : Count) :
    s.AcceptedTransaction (s.afterAccept o a txl rxc) o a txl rxc ∧
      s.SameSurroundings (s.afterAccept o a txl rxc) :=
  ⟨⟨rfl, rfl, rfl, rfl, rfl, rfl, rfl, rfl, rfl, rfl, rfl, rfl, rfl, .of_eq rfl rfl rfl, rfl, rfl, rfl, rfl⟩,
    rfl, rfl, rfl⟩

theorem State.acceptedHostPrimitive_afterAcceptPrim (s : State) (o : Opcode) (rxc : Count) :
    s.AcceptedHostPrimitive (s.afterAcceptPrim o rxc) o rxc ∧ s.SameSurroundings (s.afterAcceptPrim o rxc) :=
  ⟨⟨rfl, rfl, rfl, rfl, rfl, rfl, rfl, rfl, rfl, rfl, rfl, .of_eq rfl rfl rfl, rfl, rfl, rfl, rfl⟩, rfl, rfl, rfl⟩

/-- Settles O17: the acceptance of R161, and R161 for a busy block. -/
theorem transactionIsAccepted : Obligations.TransactionIsAccepted := by
  intro s a n r hr
  refine ⟨fun hs hp hn => ?_, fun hs => ?_⟩
  · have haccept (row : CmdRow) (txl rxc : Count) := acceptTransaction_accept row a txl rxc hr hs hn hp
    exact ⟨⟨_, haccept .writeBurst n 0, s.acceptedTransaction_afterAccept ..⟩,
      ⟨_, haccept .readBurst 0 r, s.acceptedTransaction_afterAccept ..⟩,
      ⟨_, haccept .writeThenRead n r, s.acceptedTransaction_afterAccept ..⟩⟩
  · exact ⟨exec_command_busy hr hs rfl, exec_command_busy hr hs rfl, exec_command_busy hr hs rfl⟩

/-- Settles O18: each pair of the table of R111 meets the guard of the acceptance. -/
theorem hostPrimitiveIsAccepted : Obligations.HostPrimitiveIsAccepted := by
  intro s hr hs hn hh
  have haccept (row : CmdRow) (k : Prim) (rxc : Byte) (q : Phase) (hp : phaseAfter s.phase k = some q) :=
    acceptHostPrimitive_accept row rxc hr hs hh hn hp
  refine ⟨fun hp => ?_, fun hp => ?_, fun hp d => ?_, fun hp => ⟨?_, ?_⟩⟩
  · exact ⟨_, haccept .start .start 0 _ (phaseAfter_start_eq.2 ⟨hp, rfl⟩),
      s.acceptedHostPrimitive_afterAcceptPrim ..⟩
  · exact ⟨_, haccept .stop .stop 0 _ (phaseAfter_stop_eq.2 ⟨hp, rfl⟩), s.acceptedHostPrimitive_afterAcceptPrim ..⟩
  · exact ⟨_, haccept .writeByte .write d _ (phaseAfter_write_eq.2 ⟨hp, rfl⟩),
      s.acceptedHostPrimitive_afterAcceptPrim ..⟩
  · exact ⟨_, haccept .readByte .read (ackByte .ack) _ (phaseAfter_read_eq.2 ⟨hp, rfl⟩),
      s.acceptedHostPrimitive_afterAcceptPrim ..⟩
  · exact ⟨_, haccept .readByte .read (ackByte .nack) _ (phaseAfter_read_eq.2 ⟨hp, rfl⟩),
      s.acceptedHostPrimitive_afterAcceptPrim ..⟩

/-- A transaction before INIT (R205). -/
theorem acceptTransaction_notInitialised {s : State} (row : CmdRow) (a : SlaveAddr) (txl rxc : Count)
    (hr : s.rst = false) (hs : s.seq = .idle) (hn : s.inited = false) :
    acceptTransaction row a txl rxc s = .refused .notInitialised := by
  simp [acceptTransaction, onCommandPort, hr, hs, hn]

/-- A host-issued primitive before INIT (R205). -/
theorem acceptHostPrimitive_notInitialised {s : State} (row : CmdRow) (k : Prim) (rxc : Byte) (hr : s.rst = false)
    (hs : s.seq = .idle) (hh : s.params.hostPrimitives = true) (hn : s.inited = false) :
    acceptHostPrimitive row k rxc s = .refused .notInitialised := by
  simp [acceptHostPrimitive, onCommandPort, hr, hs, hh, hn]

/-- Settles O19: every command but INIT is a transaction or a host-issued primitive. -/
theorem commandBeforeInitIsRefused : Obligations.CommandBeforeInitIsRefused := by
  intro s i hr hs hn hc hne hwf
  cases i with
  | init => exact absurd rfl hne
  | writeBurst | readBurst | writeThenRead => exact acceptTransaction_notInitialised _ _ _ _ hr hs hn
  | start | stop | writeByte | readByte => exact acceptHostPrimitive_notInitialised _ _ _ hr hs hwf hn
  | primStart | primStop | primWrite | primRead => exact absurd hc nofun

/-- Settles O21: a busy block ignores the command, an idle one accepts it. -/
theorem commandFrame : Obligations.CommandFrame := by
  intro s t i hr hc h
  by_cases hs : s.seq = .idle
  · cases exec_command_next hr hs hc h with
    | init hp =>
      exact ⟨rfl, rfl, rfl, rfl, .of_eq rfl rfl rfl, ⟨rfl, rfl, rfl⟩, absurd rfl,
        fun _ => ⟨rfl, rfl, rfl, rfl, rfl, rfl, rfl, rfl, rfl, rfl, rfl, rfl, rfl, rfl, rfl⟩, nofun⟩
    | transaction hi =>
      refine ⟨rfl, rfl, rfl, rfl, .of_eq rfl rfl rfl, ⟨rfl, rfl, rfl⟩, fun _ => ⟨rfl, rfl, rfl⟩, ?_, ?_⟩ <;>
        cases hi <;> nofun
    | hostPrimitive hi =>
      refine ⟨rfl, rfl, rfl, rfl, .of_eq rfl rfl rfl, ⟨rfl, rfl, rfl⟩, fun _ => ⟨rfl, rfl, rfl⟩, ?_,
        fun _ => ⟨rfl, rfl⟩⟩
      cases hi <;> nofun
  · obtain rfl : s = t := Host.Outcome.next.inj ((exec_command_busy hr hs hc).symm.trans h)
    exact ⟨rfl, rfl, rfl, rfl, .refl s, .refl s, fun _ => ⟨rfl, rfl, rfl⟩,
      fun _ => ⟨rfl, rfl, rfl, rfl, rfl, rfl, rfl, rfl, rfl, rfl, rfl, rfl, rfl, rfl, rfl⟩, fun _ => ⟨rfl, rfl⟩⟩

end Sys2Proof.Machine
end

section
/-! The primitives whole (R112 to R115): issue step, hold and completion step, and what each leaves unchanged. -/

namespace Sys2Proof.Machine

/-! ### The hold and the completion steps -/

theorem resume_hold {s : State} {k : Prim} (hk : k ≠ .stop) (hd : s.periph.fDone = false) :
    resume k s = .next s.hold := by
  cases k with
  | stop => exact absurd rfl hk
  | start | write | read => simp [resume, hd]

theorem resume_start_done {s : State} (hd : s.periph.fDone = true) (hp : s.phase = .idle ∨ s.phase = .data) :
    resume .start s = .next (s.afterDone .address) := by
  simp [resume, hd, phaseAfter_start_eq.2 ⟨hp, rfl⟩, completeStart_eq]

theorem resume_write_done {s : State} (hd : s.periph.fDone = true) (hp : s.phase = .address ∨ s.phase = .data) :
    resume .write s = .next (s.afterDone .data) := by
  simp [resume, hd, phaseAfter_write_eq.2 ⟨hp, rfl⟩, completeWrite_eq]

theorem resume_read_done {s : State} (hd : s.periph.fDone = true) (hp : s.phase = .data) :
    resume .read s = completeRead s .data := by
  simp [resume, hd, phaseAfter_read_eq.2 ⟨hp, rfl⟩]

theorem resume_received {s : State} (hd : s.periph.fDone = true) (hp : s.phase = .data) (hs : s.seq = .rx)
    (hc : s.idx.toNat < s.rxCap) : resume .read s = .next s.afterReceive := by
  rw [resume_read_done hd hp, completeRead_rx hs hc]

theorem resume_responded {s : State} (hd : s.periph.fDone = true) (hp : s.phase = .data) (hs : s.seq = .prim) :
    resume .read s = .next s.afterRespond := by
  rw [resume_read_done hd hp, completeRead_prim hs]

theorem State.held_hold {s : State} (hs : s.pstep = .wait) : s.Held s.hold :=
  ⟨rfl, rfl, hs, rfl, rfl, rfl, rfl, ⟨rfl, rfl, rfl, rfl, rfl, rfl⟩, .of_eq rfl rfl rfl, rfl, rfl, rfl, rfl, rfl⟩

/-- At P_WAIT without `F_DONE` the meaning of the primitive in flight is the hold (R120). -/
theorem exec_hold {s : State} {i : Instr} {k : Prim} (hr : s.rst = false) (hs : s.pstep = .wait)
    (hi : primKind i = some k) (hk : s.primitive = some k) (hne : k ≠ .stop) (hd : s.periph.fDone = false) :
    ∃ t, exec i s = .next t ∧ s.Held t :=
  ⟨s.hold, (exec_wait hr hs hi hk).trans (resume_hold hne hd), State.held_hold hs⟩

/-! ### The move of the sequencer -/

/-- The choice of R166 after the byte before `i` of a write phase, as the table of R165 has it. -/
theorem nextDataState_write (o : Opcode) (txlen rxcnt i : Count) : nextDataState o txlen rxcnt .write i =
    if i < txlen then .tx else if o = 4 then .rstart else .stop := rfl

/-- The choice of R166 after the byte before `i` of a read phase, as the table of R165 has it. -/
theorem nextDataState_read (o : Opcode) (txlen rxcnt i : Count) : nextDataState o txlen rxcnt .read i =
    if i < rxcnt then .rx else .stop := rfl

theorem State.Moved.of_advance {s t : State} (hseq : t.seq = s.nextSeq) (hidx : t.idx = s.nextIdx)
    (hdone : t.out.cmdDone = (s.seq == .prim)) : s.Moved t where
  from_start hs := ⟨by rw [hseq, State.nextSeq, hs]; rfl, by rw [hidx, State.nextIdx, hs]⟩
  from_addrW hs := ⟨by rw [hidx, State.nextIdx, hs],
    by simp only [hseq, State.nextSeq, hs, nextDataState_write, BitVec.ofNat_eq_ofNat, Count.zero_lt_iff, ne_eq]⟩
  from_tx hs := ⟨by rw [hidx, State.nextIdx, hs], by rw [hseq, State.nextSeq, hs]; rfl⟩
  from_rstart hs := ⟨by rw [hseq, State.nextSeq, hs], by rw [hidx, State.nextIdx, hs]⟩
  from_addrR hs := ⟨by rw [hidx, State.nextIdx, hs],
    by simp only [hseq, State.nextSeq, hs, nextDataState_read, BitVec.ofNat_eq_ofNat, Count.zero_lt_iff, ne_eq]⟩
  from_rx hs := ⟨by rw [hidx, State.nextIdx, hs], by rw [hseq, State.nextSeq, hs]; rfl⟩
  from_prim hs := ⟨by rw [hseq, State.nextSeq, hs], by rw [hidx, State.nextIdx, hs]⟩
  done_pulse := hdone

theorem State.moved_afterDone (s : State) (after : Phase) : s.Moved (s.afterDone after) := .of_advance rfl rfl rfl

theorem State.moved_afterReceive {s : State} (hs : s.seq = .rx) : s.Moved s.afterReceive :=
  State.Moved.of_advance rfl rfl (by rw [hs]; rfl)

theorem State.moved_afterRespond {s : State} (hs : s.seq = .prim) : s.Moved s.afterRespond :=
  State.Moved.of_advance (by rw [State.nextSeq, hs]; rfl) (by rw [State.nextIdx, hs]; rfl) (by rw [hs]; rfl)

theorem State.completed_afterDone (s : State) (after : Phase) :
    s.Completed (s.afterDone after) .done after :=
  ⟨rfl, s.moved_afterDone after, rfl, rfl, ⟨rfl, rfl, rfl, rfl, rfl, rfl⟩, fun _ => rfl, rfl, rfl, rfl, rfl⟩

theorem State.completed_afterReceive {s : State} (hs : s.seq = .rx) :
    s.Completed s.afterReceive (.doneRead s.periph.regData) .data :=
  ⟨rfl, State.moved_afterReceive hs, rfl, rfl, ⟨rfl, rfl, rfl, rfl, rfl, rfl⟩, fun _ => rfl, rfl, rfl, rfl, rfl⟩

theorem State.completed_afterRespond {s : State} (hs : s.seq = .prim) :
    s.Completed s.afterRespond (.doneRead s.periph.regData) .data :=
  ⟨rfl, State.moved_afterRespond hs, rfl, rfl, ⟨rfl, rfl, rfl, rfl, rfl, rfl⟩, fun _ => rfl, rfl, rfl, rfl, rfl⟩

/-! ### The request word on the port (R33, R84) -/

theorem Outputs.request_primWord (op : BitVec 2) (k : Ack) (d : Byte) : Outputs.request (primWord op k d) =
    { Outputs.quiet with primValid := true, primOp := op, primAck := k.toBit, primWdata := d } := by
  simp only [Outputs.request, extract_op_primWord, extract_ack_primWord, extract_data_primWord]

/-- What the four fields of a request word show and what no request raises. -/
theorem Outputs.request_fields {o : Outputs} {op : BitVec 2} {k : Ack} {d : Byte}
    (h : o = Outputs.request (primWord op k d)) :
    (o.primValid = true ∧ o.primOp = op ∧ o.primAck = k.toBit ∧ o.primWdata = d) ∧
      o.cmdDone = false ∧ o.initReq = false ∧ o.rxWe = false := by
  rw [h, Outputs.request_primWord]
  exact ⟨⟨rfl, rfl, rfl, rfl⟩, rfl, rfl, rfl⟩

theorem State.issued_afterStart (s : State) :
    s.Issued s.afterStart .reqStart [.setControlBit .fStart, .setControlBit .fGo] 0 0 0 :=
  have ⟨hreq, hnone⟩ := Outputs.request_fields (o := s.afterStart.out) rfl
  ⟨rfl, rfl, rfl, rfl, rfl, rfl, rfl, ⟨rfl, rfl, rfl, rfl, rfl, rfl⟩, .of_eq rfl rfl rfl, rfl, hreq, hnone⟩

theorem State.issued_afterWrite (s : State) (d : Byte) :
    s.Issued (s.afterWrite d) (.reqWrite d) [.writeDataRegister d, .setControlBit .fGo] 2 0 d :=
  have ⟨hreq, hnone⟩ := Outputs.request_fields (o := (s.afterWrite d).out) rfl
  ⟨rfl, rfl, rfl, rfl, rfl, rfl, rfl, ⟨rfl, rfl, rfl, rfl, rfl, rfl⟩, .of_eq rfl rfl rfl, rfl, hreq, hnone⟩

theorem State.issued_afterRead (s : State) (k : Ack) :
    s.Issued (s.afterRead k) (.reqRead k)
      [if k = .ack then .setControlBit .fAck else .clearControlBit .fAck, .setControlBit .fGo] 3 k.toBit 0 :=
  have ⟨hreq, hnone⟩ := Outputs.request_fields (o := (s.afterRead k).out) rfl
  ⟨rfl, rfl, rfl, rfl, rfl, rfl, rfl, ⟨rfl, rfl, rfl, rfl, rfl, rfl⟩, .of_eq rfl rfl rfl, rfl, hreq, hnone⟩

/-! ### The rules whole -/

/-- Settles O22: issue, hold and completion of Start, each by its own record. -/
theorem primStartFollowsItsRule : Obligations.PrimStartFollowsItsRule := by
  intro s hr hk
  refine ⟨fun hs hp hz => ?_, fun hs hd => exec_hold hr hs rfl hk (by decide) hd, fun hs hd hp => ?_⟩
  · exact ⟨s.afterStart, execPrimStart_issue hr hk hs hp hz, s.issued_afterStart, rfl⟩
  · exact ⟨s.afterDone .address, (exec_wait hr hs rfl hk).trans (resume_start_done hd hp),
      s.completed_afterDone .address, rfl, .of_eq rfl rfl rfl, rfl⟩

/-- Settles O23: the trigger of Stop ends the command in the same step. -/
theorem primStopFollowsItsRule : Obligations.PrimStopFollowsItsRule := by
  refine ⟨by decide, by decide, fun s hr hk hs hp => ?_⟩
  have hready : s.afterStop.cmdReady = true := by simp [State.cmdReady, State.afterStop, hr]
  have hflight (h : s.periph.fStart = false) : s.afterStop.periph.inFlight = some .stopCondition := by
    simp [State.afterStop, h]
  have hout : s.afterStop.out = { Outputs.request (primWord 1 .nack 0) with cmdDone := true } := rfl
  obtain ⟨⟨hvalid, hop, hack, hdata⟩, -⟩ := Outputs.request_fields (o := Outputs.request (primWord 1 .nack 0)) rfl
  exact ⟨s.afterStop, execPrimStop_issue hr hk hs hp, rfl, rfl, rfl, rfl, hs, rfl, hvalid, hop, hack, hdata, hready,
    rfl, rfl, hflight, ⟨rfl, rfl, rfl, rfl, rfl, rfl⟩, .of_eq rfl rfl rfl, rfl, rfl⟩

/-- Settles O24: issue, hold and completion of WriteByte, each by its own record. -/
theorem primWriteFollowsItsRule : Obligations.PrimWriteFollowsItsRule := by
  intro s d hr hk
  refine ⟨fun hs hp => ?_, fun hs hd => exec_hold hr hs rfl hk (by decide) hd, fun hs hd hp => ?_⟩
  · have hflight (h₁ : s.periph.fStart = false) (h₂ : s.periph.fStop = false)
        (h₃ : s.periph.tracking ≠ .receiving) : (s.afterWrite d).periph.inFlight = some (.transmit d) := by
      simp [State.afterWrite, Periph.bytePhase, h₁, h₂, h₃]
    exact ⟨s.afterWrite d, execPrimWrite_issue d hr hk hs hp, s.issued_afterWrite d, rfl, rfl, hflight⟩
  · exact ⟨s.afterDone .data, (exec_wait hr hs rfl hk).trans (resume_write_done hd hp),
      s.completed_afterDone .data, rfl, .of_eq rfl rfl rfl, rfl⟩

/-- Settles O25: the completion stores the byte in SEQ_RX and answers it in SEQ_PRIM. -/
theorem primReadFollowsItsRule : Obligations.PrimReadFollowsItsRule := by
  intro s k hr hk hp
  refine ⟨fun hs => ?_, fun hs hd => exec_hold hr hs rfl hk (by decide) hd, fun hs hd hc => ?_⟩
  · have hflight (h₁ : s.periph.fStart = false) (h₂ : s.periph.fStop = false)
        (h₃ : s.periph.tracking = .receiving) : (s.afterRead k).periph.inFlight = some .receive := by
      simp [State.afterRead, Periph.bytePhase, h₁, h₂, h₃]
    exact ⟨s.afterRead k, execPrimRead_issue k hr hk hs hp, s.issued_afterRead k, rfl, rfl, rfl, hflight⟩
  · have hexec := exec_wait (i := .primRead k) hr hs rfl hk
    rcases State.seq_of_read hk with hrx | ⟨hprim, -⟩
    · have hcap : s.idx.toNat < s.rxCap := hc.resolve_left (by rw [hrx]; decide)
      have hother (j : Nat) (hj : j ≠ s.idx.toNat) : Memory.read s.afterReceive.rx j = Memory.read s.rx j :=
        Memory.read_write_other _ _ _ _ hj
      exact ⟨s.afterReceive, hexec.trans (resume_received hd hp hrx hcap), State.completed_afterReceive hrx, rfl,
        fun _ => ⟨Memory.read_write_same .., hother, rfl, rfl, rfl, rfl⟩, fun h => absurd (hrx.symm.trans h) nofun⟩
    · exact ⟨s.afterRespond, hexec.trans (resume_responded hd hp hprim), State.completed_afterRespond hprim, rfl,
        fun h => absurd (hprim.symm.trans h) nofun, fun _ => ⟨rfl, rfl, fun _ => rfl⟩⟩

/-! ### What the primitives leave unchanged -/

/-- The instructions of format P are no commands (R80). -/
theorem isCommand_of_primKind {i : Instr} {k : Prim} (h : primKind i = some k) : i.isCommand = false := by
  cases i with
  | primStart | primStop | primWrite | primRead => rfl
  | init | writeBurst | readBurst | writeThenRead | start | stop | writeByte | readByte => exact absurd h nofun

/-- A primitive that gives a next state out of reset was issued at P_ISSUE, or is held or completed at P_WAIT. -/
theorem exec_primitive_next {s t : State} {i : Instr} {k : Prim} (hr : s.rst = false) (hi : primKind i = some k)
    (h : exec i s = .next t) :
    (s.pstep = .issue ∧ IssueStep s i t) ∨ (s.pstep = .wait ∧ s.primitive = some k ∧ WaitStep s k t) := by
  have hk := exec_primitive_named hr hi h
  cases hs : s.pstep with
  | issue =>
    exact .inl ⟨rfl, exec_issue_next hr hs (isCommand_of_primKind hi) h⟩
  | wait => exact .inr ⟨rfl, hk, resume_next hk ((exec_wait hr hs hi hk).symm.trans h)⟩

/-- The completion of a Start moves no index (R165). -/
theorem State.nextIdx_of_start {s : State} (hk : s.primitive = some .start) : s.nextIdx = s.idx := by
  rcases State.seq_of_start hk with hs | hs | hs <;> simp only [State.nextIdx, hs]

theorem IssueStep.frame {s t : State} {i : Instr} (h : IssueStep s i t) :
    s.SameLatches t ∧ s.SameViews t ∧ s.SameSurroundings t ∧ t.cmdPort = s.cmdPort ∧ t.rspData = s.rspData ∧
      t.idx = s.idx := by
  cases h <;>
    exact ⟨⟨rfl, rfl, rfl, rfl, rfl, rfl⟩, .of_eq rfl rfl rfl, ⟨rfl, rfl, rfl⟩, rfl, rfl, rfl⟩

theorem WaitStep.frame {s t : State} {k : Prim} (h : WaitStep s k t) :
    s.SameLatches t ∧ s.SameSurroundings t ∧ t.cmdPort = s.cmdPort ∧ t.periph = s.periph := by
  cases h <;> exact ⟨⟨rfl, rfl, rfl, rfl, rfl, rfl⟩, ⟨rfl, rfl, rfl⟩, rfl, rfl⟩

/-- Only the completion of a read touches a view or `rsp_data` (R62, R28). -/
theorem WaitStep.frame_of_not_read {s t : State} {k : Prim} (h : WaitStep s k t) (hk : k ≠ .read) :
    s.SameViews t ∧ t.rspData = s.rspData := by
  cases h with
  | hold | startDone | writeDone => exact ⟨.of_eq rfl rfl rfl, rfl⟩
  | received | responded => exact absurd rfl hk

theorem WaitStep.idx_of_start {s t : State} (hk : s.primitive = some .start) (h : WaitStep s .start t) :
    t.idx = s.idx := by
  cases h with
  | hold => rfl
  | startDone => exact State.nextIdx_of_start hk

/-- Settles O26: the issue step writes its own flag and the trigger's, the rest writes nothing of the peripheral. -/
theorem startStopFrame : Obligations.StartStopFrame := by
  intro s t hr h
  rcases h with h | h
  · have hk := exec_primitive_named hr (k := .start) rfl h
    have hother (h' : exec .primStop s = .next t) : t.periph.fStart = s.periph.fStart :=
      absurd (hk.symm.trans (exec_primitive_named hr (k := .stop) rfl h')) (by decide)
    rcases exec_primitive_next hr (k := .start) rfl h with ⟨-, h⟩ | ⟨-, -, h⟩
    · obtain ⟨hlatches, hviews, hsurr, hport, hrsp, hidx⟩ := h.frame
      cases h
      exact ⟨hlatches, hviews, hsurr, hport, hrsp, hidx, rfl, rfl, rfl, rfl, rfl, rfl, rfl, rfl, fun _ => rfl, hother⟩
    · obtain ⟨hlatches, hsurr, hport, hperiph⟩ := h.frame
      obtain ⟨hviews, hrsp⟩ := h.frame_of_not_read (by decide)
      rw [hperiph] at hother ⊢
      exact ⟨hlatches, hviews, hsurr, hport, hrsp, h.idx_of_start hk, rfl, rfl, rfl, rfl, rfl, rfl, rfl, rfl,
        fun _ => rfl, hother⟩
  · have hk := exec_primitive_named hr (k := .stop) rfl h
    have hother (h' : exec .primStart s = .next t) : t.periph.fStop = s.periph.fStop :=
      absurd (hk.symm.trans (exec_primitive_named hr (k := .start) rfl h')) (by decide)
    rcases exec_primitive_next hr (k := .stop) rfl h with ⟨-, h⟩ | ⟨-, -, h⟩
    · obtain ⟨hlatches, hviews, hsurr, hport, hrsp, hidx⟩ := h.frame
      cases h
      exact ⟨hlatches, hviews, hsurr, hport, hrsp, hidx, rfl, rfl, rfl, rfl, rfl, rfl, rfl, rfl, hother, fun _ => rfl⟩
    · cases h with
      | hold hne => exact absurd rfl hne

/-- Settles O27: the issue step writes the data register and triggers, the rest moves the sequencer only. -/
theorem writeFrame : Obligations.WriteFrame := by
  intro s t d hr h
  rcases exec_primitive_next hr (k := .write) rfl h with ⟨hs, h⟩ | ⟨hs, -, h⟩
  · obtain ⟨hlatches, hviews, hsurr, hport, hrsp, hidx⟩ := h.frame
    cases h
    exact ⟨hlatches, hviews, hsurr, hport, hrsp, fun _ => hidx, fun hw => absurd (hs.symm.trans hw) nofun,
      rfl, rfl, rfl, rfl, rfl, rfl, rfl, rfl, rfl⟩
  · obtain ⟨hlatches, hsurr, hport, hperiph⟩ := h.frame
    obtain ⟨hviews, hrsp⟩ := h.frame_of_not_read (by decide)
    have hidx (hq : s.pstep = .issue ∨ s.periph.fDone = false ∨ s.seq = .prim) : t.idx = s.idx := by
      cases h with
      | hold => rfl
      | writeDone hd =>
        rcases hq with hq | hq | hq
        · exact absurd (hs.symm.trans hq) nofun
        · exact absurd (hd.symm.trans hq) nofun
        · simp [State.afterDone, State.nextIdx, hq]
    rw [hperiph]
    exact ⟨hlatches, hviews, hsurr, hport, hrsp, hidx, fun _ => rfl, rfl, rfl, rfl, rfl, rfl, rfl, rfl, rfl, rfl⟩

/-- Settles O28: of the steps of a read only the completion in SEQ_RX writes the receive view, and only the one in
SEQ_PRIM writes `rsp_data`. -/
theorem readFrame : Obligations.ReadFrame := by
  intro s t k hr h
  rcases exec_primitive_next hr (k := .read) rfl h with ⟨hs, h⟩ | ⟨hs, -, h⟩
  · obtain ⟨hlatches, hviews, hsurr, hport, hrsp, hidx⟩ := h.frame
    cases h
    exact ⟨hlatches, hsurr, hport, rfl, fun _ => rfl, fun _ _ => rfl, fun _ => ⟨rfl, fun _ => rfl⟩, fun _ => rfl,
      fun hw => absurd (hs.symm.trans hw) nofun, rfl, rfl, rfl, rfl, rfl, rfl, rfl, rfl, rfl⟩
  · obtain ⟨hlatches, hsurr, hport, hperiph⟩ := h.frame
    rw [hperiph]
    refine ⟨hlatches, hsurr, hport, ?_, ?_, ?_, ?_, ?_, fun _ => rfl, rfl, rfl, rfl, rfl, rfl, rfl, rfl, rfl, rfl⟩
    · cases h <;> rfl
    · cases h <;> exact fun _ => rfl
    · cases h with
      | hold | responded => exact fun _ _ => rfl
      | received => exact fun j hj => Memory.read_write_other _ _ _ _ hj
    · cases h with
      | hold | responded => exact fun _ => ⟨rfl, fun _ => rfl⟩
      | received hd _ hrx =>
        rintro (hq | hq | hq)
        · exact absurd (hs.symm.trans hq) nofun
        · exact absurd (hd.symm.trans hq) nofun
        · exact absurd (hrx.symm.trans hq) nofun
    · cases h with
      | hold | received => exact fun _ => rfl
      | responded hd _ hprim =>
        rintro (hq | hq | hq)
        · exact absurd (hs.symm.trans hq) nofun
        · exact absurd (hd.symm.trans hq) nofun
        · exact absurd hprim hq

/-! ### Refusals of the primitives -/

/-- Settles O29: the guard of hazard 1 comes after the table of R111. -/
theorem startDuringStopIsRefused : Obligations.StartDuringStopIsRefused := by
  intro s hr hk hs hp hf hz
  have hph : phaseAfter s.phase .start = some .address := phaseAfter_start_eq.2 ⟨hp, rfl⟩
  simp [exec, execPrimStart, onRequestPort, hr, hk, hs, hph, hf, hz]

/-- Settles O30: the completion of a read in SEQ_RX has no place for its byte. -/
theorem receiveBeyondStorageIsRefused : Obligations.ReceiveBeyondStorageIsRefused := by
  intro s k hr hq hs hp hd hc
  have hk : s.primitive = some .read := by simp [State.primitive, hq]
  rw [exec_wait hr hs rfl hk, resume_read_done hd hp, completeRead_beyond hq hc]

/-! ### What the sequencer requests and where it goes (R165, R166) -/

/-- The instruction that requests this primitive with the operand of the state (R84, R165). -/
def State.request (s : State) : Prim → Instr
  | .start => .primStart
  | .stop => .primStop
  | .write => .primWrite s.writeOperand
  | .read => .primRead s.readOperand

theorem State.requested {s : State} {k : Prim} (hk : s.primitive = some k) :
    s.requestWord.map decodePrim = some (s.request k) := by
  rw [State.requestWord_eq, hk]
  cases k <;> rfl

theorem State.txByte_of_read {s : State} {b : Byte} (h : Memory.read s.tx s.idx.toNat = some b) : s.txByte = b := by
  rw [State.txByte, h]

/-- Settles O31: the request word decodes to the primitive of the state with its operand. -/
theorem sequencerRequestsTheTabledPrimitive : Obligations.SequencerRequestsTheTabledPrimitive := by
  intro s
  refine ⟨fun hs => ?_, fun hs => ?_, fun hs => ?_, fun hs => ?_, fun hs => ?_, fun hs => ?_, fun hs => ?_,
    fun hs => ⟨fun ho => ?_, fun ho => ?_, fun ho => ?_, fun ho => ?_⟩⟩
  · simp [State.requestWord, State.primitive, hs]
  · exact State.requested (k := .start) (by rcases hs with hs | hs <;> simp [State.primitive, hs])
  · rw [State.requested (k := .write) (by simp [State.primitive, hs])]
    simp [State.request, State.writeOperand, hs, frame_eq_append, Dir.toBit]
  · have hreq := State.requested (s := s) (k := .write) (by simp [State.primitive, hs])
    refine ⟨fun b hb => ?_, _, hreq⟩
    rw [hreq]
    simp [State.request, State.writeOperand, hs, State.txByte_of_read hb]
  · rw [State.requested (k := .write) (by simp [State.primitive, hs])]
    simp [State.request, State.writeOperand, hs, frame_eq_append, Dir.toBit]
  · rw [State.requested (k := .read) (by simp [State.primitive, hs])]
    simp [State.request, State.readOperand, hs, ackDecision]
  · exact State.requested (k := .stop) (by simp [State.primitive, hs])
  · exact State.requested (k := .start) (by simp [State.primitive, hs, ho, CmdRow.opcode])
  · exact State.requested (k := .stop) (by simp [State.primitive, hs, ho, CmdRow.opcode])
  · rw [State.requested (k := .write) (by simp [State.primitive, hs, ho, CmdRow.opcode])]
    simp [State.request, State.writeOperand, hs]
  · rw [State.requested (k := .read) (by simp [State.primitive, hs, ho, CmdRow.opcode])]
    simp [State.request, State.readOperand, hs, Ack.ofBit]

/-- A busy coherent state names a primitive, in a phase where the table of R111 has it (R41). -/
theorem State.Coherent.primitive_legal {s : State} (h : s.Coherent) (hbusy : s.seq ≠ .idle) :
    ∃ k q, s.primitive = some k ∧ phaseAfter s.phase k = some q := by
  cases hs : s.seq with
  | idle => exact absurd hs hbusy
  | start => exact ⟨.start, .address, by rw [State.primitive, hs], by rw [h.start_phase hs]; rfl⟩
  | addrW => exact ⟨.write, .data, by rw [State.primitive, hs], by rw [h.address_phase (.inl hs)]; rfl⟩
  | tx => exact ⟨.write, .data, by rw [State.primitive, hs], by rw [h.data_phase (by simp [hs])]; rfl⟩
  | rstart => exact ⟨.start, .address, by rw [State.primitive, hs], by rw [h.data_phase (by simp [hs])]; rfl⟩
  | addrR => exact ⟨.write, .data, by rw [State.primitive, hs], by rw [h.address_phase (.inr hs)]; rfl⟩
  | rx => exact ⟨.read, .data, by rw [State.primitive, hs], by rw [h.data_phase (by simp [hs])]; rfl⟩
  | stop => exact ⟨.stop, .idle, by rw [State.primitive, hs], by rw [h.data_phase (by simp [hs])]; rfl⟩
  | prim => exact h.prim_legal hs

/-- In a coherent state the primitive at P_WAIT is no Stop (R41 f). -/
theorem State.Coherent.blocking_of_wait {s : State} {k : Prim} (h : s.Coherent) (hk : s.primitive = some k)
    (hs : s.pstep = .wait) : k ≠ .stop := by
  rintro rfl
  exact absurd (hs.symm.trans (h.stop_issues hk)) nofun

/-- A legal primitive at P_WAIT that the peripheral has finished completes, if its byte has a place (R120, R72). -/
theorem resume_done {s : State} {k : Prim} {q : Phase} (hk : s.primitive = some k) (hne : k ≠ .stop)
    (hp : phaseAfter s.phase k = some q) (hd : s.periph.fDone = true) (hcap : s.seq = .rx → s.idx.toNat < s.rxCap) :
    ∃ t, resume k s = .next t ∧ s.Moved t ∧ t.pstep = .issue ∧ t.phase = q := by
  cases k with
  | stop => exact absurd rfl hne
  | start =>
    obtain ⟨hq, rfl⟩ := phaseAfter_start_eq.1 hp
    exact ⟨_, resume_start_done hd hq, s.moved_afterDone _, rfl, rfl⟩
  | write =>
    obtain ⟨hq, rfl⟩ := phaseAfter_write_eq.1 hp
    exact ⟨_, resume_write_done hd hq, s.moved_afterDone _, rfl, rfl⟩
  | read =>
    obtain ⟨hq, rfl⟩ := phaseAfter_read_eq.1 hp
    rcases State.seq_of_read hk with hs | ⟨hs, -⟩
    · exact ⟨_, resume_received hd hq hs (hcap hs), State.moved_afterReceive hs, rfl, rfl⟩
    · exact ⟨_, resume_responded hd hq hs, State.moved_afterRespond hs, rfl, rfl⟩

/-- Settles O32: a coherent state at P_WAIT has a legal blocking primitive in flight, which completes. -/
theorem sequencerMovesAsTabled : Obligations.SequencerMovesAsTabled := by
  intro s hr hc hs hd hcap
  have hbusy : s.seq ≠ .idle := fun h => absurd (hs.symm.trans (hc.idle_issues h)) nofun
  obtain ⟨k, q, hk, hp⟩ := hc.primitive_legal hbusy
  obtain ⟨t, ht, hmoved, hissue, hphase⟩ := resume_done hk (hc.blocking_of_wait hk hs) hp hd hcap
  refine ⟨t, by rw [step_wait hr hs hk, ht]; rfl, hmoved, hissue, ?_⟩
  rw [hk, hphase]
  exact hp.symm

end Sys2Proof.Machine
end

section
/-! When a step has no next state: progress of a busy coherent block, and for which reasons a step is refused. -/

namespace Sys2Proof.Machine

/-! ### Progress -/

/-- A legal primitive at P_ISSUE is issued, hazard 1 apart (R120, R236). -/
theorem exec_request_issue {s : State} {k : Prim} {q : Phase} (hr : s.rst = false) (hs : s.pstep = .issue)
    (hk : s.primitive = some k) (hp : phaseAfter s.phase k = some q)
    (hz : s.periph.inFlight ≠ some .stopCondition ∨ s.params.stopThenStartOk = true) :
    ∃ t, exec (s.request k) s = .next t := by
  cases k with
  | start => exact ⟨_, execPrimStart_issue hr hk hs (phaseAfter_start_eq.1 hp).1 hz⟩
  | stop => exact ⟨_, execPrimStop_issue hr hk hs (phaseAfter_stop_eq.1 hp).1⟩
  | write => exact ⟨_, execPrimWrite_issue _ hr hk hs (phaseAfter_write_eq.1 hp).1⟩
  | read => exact ⟨_, execPrimRead_issue _ hr hk hs (phaseAfter_read_eq.1 hp).1⟩

/-- Settles O38: a coherent busy state names a legal primitive, which is issued, held or completed. -/
theorem busyBlockAlwaysSteps : Obligations.BusyBlockAlwaysSteps := by
  intro s hc hr hbusy hcap hz
  obtain ⟨k, q, hk, hp⟩ := hc.primitive_legal hbusy
  cases hs : s.pstep with
  | issue =>
    obtain ⟨t, ht⟩ := exec_request_issue hr hs hk hp hz
    exact ⟨t.envStep, by rw [step_issue hr hbusy hs (State.requested hk), ht]; rfl⟩
  | wait =>
    have hne := hc.blocking_of_wait hk hs
    cases hd : s.periph.fDone with
    | false => exact ⟨_, step_hold hr hs hk hne hd⟩
    | true =>
      obtain ⟨t, ht, -⟩ := resume_done hk hne hp hd hcap
      exact ⟨t.envStep, by rw [step_wait hr hs hk, ht]; rfl⟩

/-! ### Refusals -/

theorem thenEnvironment_refused {r : Result} {e : Refusal} (h : thenEnvironment r = .refused e) : r = .refused e := by
  cases r with
  | next t => exact absurd h nofun
  | fault f => exact nomatch f
  | refused e' => exact h

/-- The two reasons for which a transaction is refused. -/
theorem acceptTransaction_refused {s : State} {row : CmdRow} {a : SlaveAddr} {txl rxc : Count} {e : Refusal}
    (hr : s.rst = false) (hs : s.seq = .idle) (h : acceptTransaction row a txl rxc s = .refused e) :
    (s.inited = false ∧ e = .notInitialised) ∨ (s.phase ≠ .idle ∧ e = .frameOpen) := by
  cases hn : s.inited with
  | false =>
    rw [acceptTransaction_notInitialised row a txl rxc hr hs hn] at h
    exact .inl ⟨rfl, (Host.Outcome.refused.inj h).symm⟩
  | true =>
    by_cases hp : s.phase = .idle
    · rw [acceptTransaction_accept row a txl rxc hr hs hn hp] at h
      exact absurd h nofun
    · rw [acceptTransaction_frameOpen row a txl rxc hr hs hn hp] at h
      exact .inr ⟨hp, (Host.Outcome.refused.inj h).symm⟩

/-- The two reasons for which a host-issued primitive is refused in a build that has it. -/
theorem acceptHostPrimitive_refused {s : State} {row : CmdRow} {k : Prim} {rxc : Byte} {e : Refusal}
    (hr : s.rst = false) (hs : s.seq = .idle) (hh : s.params.hostPrimitives = true)
    (h : acceptHostPrimitive row k rxc s = .refused e) :
    (s.inited = false ∧ e = .notInitialised) ∨ (phaseAfter s.phase k = none ∧ e = .outsideBusPhaseMachine) := by
  cases hn : s.inited with
  | false =>
    rw [acceptHostPrimitive_notInitialised row k rxc hr hs hh hn] at h
    exact .inl ⟨rfl, (Host.Outcome.refused.inj h).symm⟩
  | true =>
    cases hp : phaseAfter s.phase k with
    | some q =>
      rw [acceptHostPrimitive_accept row rxc hr hs hh hn hp] at h
      exact absurd h nofun
    | none =>
      rw [acceptHostPrimitive_outside row rxc hr hs hh hn hp] at h
      exact .inr ⟨rfl, (Host.Outcome.refused.inj h).symm⟩

/-- A transaction on the port is refused before INIT or in an open frame. -/
theorem State.RefusedFor.of_transaction {s : State} {i : Instr} {row : CmdRow} {a : SlaveAddr} {txl rxc : Count}
    {e : Refusal} (hr : s.rst = false) (hi : s.Presents i) (hne : i ≠ .init) (hwhole : i.isHostPrimitive = false)
    (h : acceptTransaction row a txl rxc s = .refused e) : s.RefusedFor e := by
  rcases acceptTransaction_refused hr hi.idle h with ⟨hn, rfl⟩ | ⟨hp, rfl⟩
  · exact .beforeInit hi hne hn
  · exact .openFrame hi hwhole hp

/-- A host primitive on the port is refused before INIT or outside the table of R111; the build has it, because its
word is legal. -/
theorem State.RefusedFor.of_hostPrimitive {s : State} {i : Instr} {row : CmdRow} {k : Prim} {rxc : Byte} {e : Refusal}
    (hr : s.rst = false) (hi : s.Presents i) (hne : i ≠ .init) (hk : hostPrimitiveOf i = some k)
    (hhost : i.isHostPrimitive = true) (h : acceptHostPrimitive row k rxc s = .refused e) : s.RefusedFor e := by
  have hh : s.params.hostPrimitives = true := by
    obtain ⟨w, -, hd⟩ := hi.presented
    obtain ⟨-, -, -, hwf⟩ := selects_of_decodeCmd hd
    simpa [Instr.wellFormed, hhost] using hwf
  rcases acceptHostPrimitive_refused hr hi.idle hh h with ⟨hn, rfl⟩ | ⟨hp, rfl⟩
  · exact .beforeInit hi hne hn
  · exact .hostOutside hi hk hp

/-- The reasons for which a command on the port is refused. -/
theorem exec_command_refused {s : State} {i : Instr} {e : Refusal} (hr : s.rst = false) (hi : s.Presents i)
    (hc : i.isCommand = true) (h : exec i s = .refused e) : s.RefusedFor e := by
  cases i with
  | init =>
    by_cases hp : s.phase = .idle
    · exact absurd ((execInit_accept hr hi.idle hp).symm.trans h) nofun
    · obtain rfl := Host.Outcome.refused.inj ((execInit_frameOpen hr hi.idle hp).symm.trans h)
      exact .openFrame hi rfl hp
  | writeBurst | readBurst | writeThenRead => exact .of_transaction hr hi nofun rfl h
  | start | stop | writeByte | readByte => exact .of_hostPrimitive hr hi nofun rfl rfl h
  | primStart | primStop | primWrite | primRead => exact absurd hc nofun

theorem exec_request (s : State) (k : Prim) : ∃ issue, exec (s.request k) s = onRequestPort k s issue := by
  cases k <;> exact ⟨_, rfl⟩

/-- The reasons for which the sequencer's own request is refused at P_ISSUE. -/
theorem exec_request_refused {s : State} {k : Prim} {e : Refusal} (hr : s.rst = false) (hs : s.pstep = .issue)
    (hk : s.primitive = some k) (h : exec (s.request k) s = .refused e) : s.RefusedFor e := by
  cases hp : phaseAfter s.phase k with
  | none =>
    obtain ⟨issue, hissue⟩ := exec_request s k
    rw [hissue, onRequestPort_outside issue hr hs hk hp] at h
    exact Host.Outcome.refused.inj h ▸ .outside hk hp
  | some q =>
    by_cases hz : s.periph.inFlight ≠ some .stopCondition ∨ s.params.stopThenStartOk = true
    · obtain ⟨t, ht⟩ := exec_request_issue hr hs hk hp hz
      exact absurd (ht.symm.trans h) nofun
    · obtain ⟨hf, hok⟩ := not_or.1 hz
      have hf : s.periph.inFlight = some .stopCondition := not_not.1 hf
      have hok : s.params.stopThenStartOk = false := by simpa using hok
      cases k with
      | start =>
        have hrefused := startDuringStopIsRefused s hr hk hs (phaseAfter_start_eq.1 hp).1 hf hok
        exact Host.Outcome.refused.inj (hrefused.symm.trans h) ▸ .hazard hk hs hf hok
      | stop => exact absurd ((execPrimStop_issue hr hk hs (phaseAfter_stop_eq.1 hp).1).symm.trans h) nofun
      | write => exact absurd ((execPrimWrite_issue _ hr hk hs (phaseAfter_write_eq.1 hp).1).symm.trans h) nofun
      | read => exact absurd ((execPrimRead_issue _ hr hk hs (phaseAfter_read_eq.1 hp).1).symm.trans h) nofun

/-- A finished primitive outside the table of R111 is refused (R122). -/
theorem resume_outside {s : State} {k : Prim} (hne : k ≠ .stop) (hd : s.periph.fDone = true)
    (hp : phaseAfter s.phase k = none) : resume k s = .refused .outsideBusPhaseMachine := by
  cases k with
  | stop => exact absurd rfl hne
  | start | write | read => simp [resume, hd, hp]

/-- The reasons for which the rest of a primitive is refused. -/
theorem resume_refused {s : State} {k : Prim} {e : Refusal} (hs : s.pstep = .wait) (hk : s.primitive = some k)
    (h : resume k s = .refused e) : s.RefusedFor e := by
  by_cases hne : k = .stop
  · subst hne
    exact Host.Outcome.refused.inj h ▸ .stopWaits hk hs
  cases hd : s.periph.fDone with
  | false => exact absurd ((resume_hold hne hd).symm.trans h) nofun
  | true =>
    cases hp : phaseAfter s.phase k with
    | none => exact Host.Outcome.refused.inj ((resume_outside hne hd hp).symm.trans h) ▸ .outside hk hp
    | some q =>
      by_cases hcap : s.seq = .rx → s.idx.toNat < s.rxCap
      · obtain ⟨t, ht, -⟩ := resume_done hk hne hp hd hcap
        exact absurd (ht.symm.trans h) nofun
      · obtain ⟨hrx, hfull⟩ := Classical.not_imp.1 hcap
        have hfull : s.rxCap ≤ s.idx.toNat := Nat.not_lt.1 hfull
        obtain rfl : k = .read := by simpa [State.primitive, hrx] using hk.symm
        rw [resume_read_done hd (phaseAfter_read_eq.1 hp).1, completeRead_beyond hrx hfull] at h
        exact Host.Outcome.refused.inj h ▸ .storage hrx hs hd hfull

/-- Settles O39: the fetch is refused for an illegal word or an unreachable state, and otherwise hands on to a
command, to a request of the sequencer, or to the rest of a primitive. -/
theorem nothingFaults : Obligations.NothingFaults := by
  refine ⟨⟨nofun⟩, fun s e h => ?_⟩
  cases hr : s.rst with
  | true => exact absurd ((step_in_reset hr).symm.trans h) nofun
  | false =>
    refine ⟨rfl, ?_⟩
    by_cases hs : s.seq = .idle
    · cases hw : s.cmdPort with
      | none => exact absurd ((step_idle hr hs hw).symm.trans h) nofun
      | some w =>
        cases hd : decodeCmd s.params.hostPrimitives w with
        | illegal why =>
          exact Host.Outcome.refused.inj ((step_illegal hr hs hw hd).symm.trans h) ▸ .illegal hs hw hd
        | legal i =>
          rw [step_command hr hs hw hd] at h
          exact exec_command_refused hr ⟨hs, w, hw, hd⟩ (isCommand_of_decodeCmd hd) (thenEnvironment_refused h)
    · cases hk : s.primitive with
      | none =>
        have hrefused : step s = .refused .unreachableSequencerState := by
          cases hp : s.pstep <;>
            simp [step, fetch, hr, hs, hp, resumeInFlight, State.requestWord, hk, thenEnvironment]
        exact Host.Outcome.refused.inj (hrefused.symm.trans h) ▸ .noPrimitive hs hk
      | some k =>
        cases hp : s.pstep with
        | issue =>
          rw [step_issue hr hs hp (State.requested hk)] at h
          exact exec_request_refused hr hp hk (thenEnvironment_refused h)
        | wait =>
          rw [step_wait hr hp hk] at h
          exact resume_refused hp hk (thenEnvironment_refused h)

end Sys2Proof.Machine
end

section
/-! Rules of the whole machine: what a step can change of the latches, of the views, of the bus-level state and of the
trace. -/

namespace Sys2Proof.Machine

/-- `rsp_data` changes only at the completion of a host-issued READ_BYTE (R28). -/
theorem BlockStep.rspData_changed {s u : State} (h : BlockStep s u) (hr : s.rst = false) (hne : u.rspData ≠ s.rspData) :
    s.seq = .prim ∧ s.op = 11 ∧ s.pstep = .wait ∧ s.periph.fDone = true ∧ u.rspData = s.periph.regData := by
  cases h with
  | reset hr' => exact absurd (hr.symm.trans hr') nofun
  | idle => exact absurd rfl hne
  | command _ _ _ _ h => cases h <;> exact absurd rfl hne
  | issue _ _ h _ =>
    obtain ⟨-, -, -, -, hrsp, -⟩ := h.frame
    exact absurd hrsp hne
  | wait _ hs hk h =>
    cases h with
    | hold | startDone | writeDone | received => exact absurd rfl hne
    | responded hd _ hprim =>
      obtain hrx | ⟨-, hop⟩ := State.seq_of_read hk
      · exact absurd (hprim.symm.trans hrx) nofun
      · exact ⟨hprim, hop, hs, hd, rfl⟩

/-- The only command word that writes `inited` is INIT's (R29, R203). -/
theorem BlockStep.inited_same {s u : State} {w : CmdWord} (h : BlockStep s u) (hr : s.rst = false)
    (hw : s.cmdPort = some w) (hne : w ≠ 0x10000000) : u.inited = s.inited := by
  cases h with
  | reset hr' => exact absurd (hr.symm.trans hr') nofun
  | idle => rfl
  | command _ _ hw' hd h =>
    cases h with
    | init =>
      obtain rfl := Option.some.inj (hw.symm.trans hw')
      exact absurd (Encoded.cmd.inj (encode_of_decodeCmd hd).1).symm hne
    | transaction | hostPrimitive => rfl
  | issue _ _ h _ => cases h <;> rfl
  | wait _ _ _ h => cases h <;> rfl

/-- A step of the block with no command accepted and no reset leaves the latches and `inited` alone (R24, R29). -/
theorem BlockStep.latches_same {s u : State} (h : BlockStep s u) (hr : s.rst = false)
    (hq : s.seq ≠ .idle ∨ s.cmdPort = none) : s.SameLatches u := by
  by_cases hs : s.seq = .idle
  · have hw : s.cmdPort = none := hq.resolve_left (not_not.2 hs)
    cases h with
    | reset hr' => exact absurd (hr.symm.trans hr') nofun
    | idle => exact ⟨rfl, rfl, rfl, rfl, rfl, rfl⟩
    | command _ _ hw' => exact absurd (hw.symm.trans hw') nofun
    | issue _ _ h _ => exact h.frame.1
    | wait _ _ _ h => exact h.frame.1
  · exact (h.busy_keeps hr hs).2

/-- Settles O40: the steps of the block write no parameter, latches only at an acceptance, `rsp_data` only in SEQ_PRIM. -/
theorem latchesChangeOnlyAtAcceptance : Obligations.LatchesChangeOnlyAtAcceptance := by
  intro s t h hr
  obtain ⟨u, rfl, hu⟩ := step_cases h
  simp only [State.envStep_params, State.envStep_op, State.envStep_addr, State.envStep_txlen, State.envStep_rxcnt,
    State.envStep_inited, State.envStep_rspData]
  refine ⟨hu.params_same, fun hq => ?_, fun w _ => hu.inited_same hr, hu.rspData_changed hr⟩
  obtain ⟨hop, haddr, htxlen, hrxcnt, hinited, -⟩ := hu.latches_same hr hq
  exact ⟨hop, haddr, htxlen, hrxcnt, hinited⟩

/-- Settles O41: of all steps of the block only the completion of SEQ_RX writes a view. -/
theorem viewsChangeOnlyByReceivedBytes : Obligations.ViewsChangeOnlyByReceivedBytes := by
  intro s t h
  obtain ⟨u, rfl, hu⟩ := step_cases h
  refine ⟨u, rfl, hu.env_same, fun he => State.envStep_nil (hu.env_same.trans he), ?_⟩
  cases hu with
  | reset | idle => exact ⟨rfl, .inl rfl⟩
  | command _ _ _ _ h => cases h <;> exact ⟨rfl, .inl rfl⟩
  | issue _ _ h _ => cases h <;> exact ⟨rfl, .inl rfl⟩
  | wait hr hs _ h =>
    cases h with
    | hold | startDone | writeDone | responded => exact ⟨rfl, .inl rfl⟩
    | received hd _ hrx hcap =>
      exact ⟨rfl, .inr ⟨hrx, hs, hd, hr, hcap, Memory.read_write_same .., fun _ => Memory.read_write_other _ _ _ _⟩⟩

/-- The bus-level state returns to Idle only by the issue step of a Stop (R23). -/
theorem BlockStep.releases {s u : State} (h : BlockStep s u) (hr : s.rst = false) (hp : s.phase ≠ .idle)
    (hp' : u.phase = .idle) : s.primitive = some .stop ∧ s.phase = .data ∧ u.trace = s.trace ++ [.reqStop] := by
  cases h with
  | reset hr' => exact absurd (hr.symm.trans hr') nofun
  | idle => exact absurd hp' hp
  | command _ _ _ _ h => cases h <;> exact absurd hp' hp
  | issue _ _ h _ =>
    cases h with
    | stop hk hdata => exact ⟨hk, hdata, rfl⟩
    | start | write | read => exact absurd hp' hp
  | wait _ _ _ h =>
    cases h with
    | hold => exact absurd hp' hp
    | startDone | writeDone | received | responded => exact absurd hp' nofun

/-- The bus-level state leaves Idle only by the completion of a Start (R23). -/
theorem BlockStep.opens {s u : State} (h : BlockStep s u) (hp : s.phase = .idle) (hp' : u.phase ≠ .idle) :
    s.primitive = some .start ∧ s.pstep = .wait ∧ u.phase = .address ∧ u.trace = s.trace ++ [.done] := by
  cases h with
  | reset => exact absurd rfl hp'
  | idle => exact absurd hp hp'
  | command _ _ _ _ h => cases h <;> exact absurd hp hp'
  | issue _ _ h _ =>
    cases h with
    | stop => exact absurd rfl hp'
    | start | write | read => exact absurd hp hp'
  | wait _ hs hk h =>
    cases h with
    | hold => exact absurd hp hp'
    | startDone => exact ⟨hk, hs, rfl, rfl⟩
    | writeDone _ hq => simp [hp] at hq
    | received _ hq | responded _ hq => exact absurd (hp.symm.trans hq) nofun

/-- Settles O42: the two edges of the block's step, which the moves of the other agents leave as they are. -/
theorem onlyStopReleasesTheBus : Obligations.OnlyStopReleasesTheBus := by
  intro s t _ hr h
  obtain ⟨u, rfl, hu⟩ := step_cases h
  simp only [State.envStep_phase, State.envStep_trace]
  refine ⟨fun hp hp' => ?_, hu.opens⟩
  obtain ⟨hk, hdata, htrace⟩ := hu.releases hr hp hp'
  refine ⟨hk, hdata, htrace, fun _ hi => ?_⟩
  exact (State.seq_of_stop hk).resolve_right fun hprim => hi.never_prim hprim.1

/-- The event of an issue step: a `Req` event, after which the block waits or the command has ended (R120). -/
theorem IssueStep.event {s t : State} {i : Instr} (h : IssueStep s i t) :
    ∃ e, t.trace = s.trace ++ [e] ∧ e ≠ .done ∧ (∀ b, e ≠ .doneRead b) ∧ (e ≠ .reqStop → t.pstep = .wait) ∧
      (e = .reqStop → t.seq = .idle) := by
  cases h with
  | start => exact ⟨.reqStart, rfl, nofun, nofun, fun _ => rfl, nofun⟩
  | stop => exact ⟨.reqStop, rfl, nofun, nofun, absurd rfl, fun _ => rfl⟩
  | write d => exact ⟨.reqWrite d, rfl, nofun, nofun, fun _ => rfl, nofun⟩
  | read k => exact ⟨.reqRead k, rfl, nofun, nofun, fun _ => rfl, nofun⟩

theorem IssueStep.busy {s t : State} {i : Instr} (h : IssueStep s i t) : s.seq ≠ .idle := by
  cases h with
  | start hk | stop hk | write _ hk | read _ hk => exact State.seq_ne_idle hk

/-- Settles O43: only an issue step and a completion step make an event, one each. -/
theorem eventsComeInOrder : Obligations.EventsComeInOrder := by
  intro s t h
  obtain ⟨u, rfl, hu⟩ := step_cases h
  simp only [State.envStep_trace, State.envStep_pstep, State.envStep_seq]
  cases hu with
  | reset | idle => exact .inl rfl
  | command _ _ _ _ h => cases h <;> exact .inl rfl
  | issue hr hs h _ => exact .inr (.inl ⟨hr, h.busy, hs, h.event⟩)
  | wait hr hs hk h =>
    have hbusy := State.seq_ne_idle hk
    cases h with
    | hold => exact .inl rfl
    | startDone hd | writeDone hd => exact .inr (.inr ⟨hr, hbusy, hs, hd, rfl, .done, rfl, .inl rfl⟩)
    | received hd | responded hd => exact .inr (.inr ⟨hr, hbusy, hs, hd, rfl, _, rfl, .inr rfl⟩)

end Sys2Proof.Machine
end

section
/-! The hang (R117, R215): while the peripheral does not finish, the block holds for ever. -/

namespace Sys2Proof.Machine

/-- A move of an agent that neither finishes a bus phase nor resets the block. -/
def EnvMove.Quiet (m : EnvMove) : Prop := m.endsPhase = false ∧ m ≠ .setRst true

/-- A move that ends no phase leaves `F_DONE` alone. -/
theorem State.envMove_fDone {m : EnvMove} (h : m.endsPhase = false) (s : State) :
    (s.envMove m).periph.fDone = s.periph.fDone := by
  cases m with
  | present | withdraw | setRst | passTxView | passRxView | storeTx | takeRequest => rfl
  | storeRx => simp only [State.envMove]; split <;> rfl
  | phaseDone | stopDriven => exact absurd h nofun

/-- A move that does not raise `rst` leaves a released block released. -/
theorem State.envMove_rst {m : EnvMove} (h : m ≠ .setRst true) {s : State} (hr : s.rst = false) :
    (s.envMove m).rst = false := by
  cases m with
  | setRst level =>
    cases level with
    | true => exact absurd rfl h
    | false => rfl
  | present | withdraw | passTxView | passRxView | storeTx | takeRequest | phaseDone | stopDriven => exact hr
  | storeRx => simp only [State.envMove]; split <;> exact hr

theorem State.envMove_env (s : State) (m : EnvMove) : (s.envMove m).env = s.env := by
  cases m with
  | storeRx => simp only [State.envMove]; split <;> rfl
  | present | withdraw | setRst | passTxView | passRxView | storeTx | takeRequest | phaseDone | stopDriven => rfl

theorem State.envMoves_quiet {ms : List EnvMove} (h : ∀ m ∈ ms, m.Quiet) {s : State} (hr : s.rst = false) :
    (s.envMoves ms).rst = false ∧ (s.envMoves ms).periph.fDone = s.periph.fDone := by
  induction ms generalizing s with
  | nil => exact ⟨hr, rfl⟩
  | cons m ms ih =>
    obtain ⟨hm, hms⟩ := List.forall_mem_cons.1 h
    obtain ⟨hr', hd'⟩ := ih hms (State.envMove_rst hm.2 hr)
    exact ⟨hr', hd'.trans (State.envMove_fDone hm.1 s)⟩

/-- The block holds the primitive `k`, and no move to come finishes the phase or resets the block. -/
structure State.Hangs (s : State) (k : Prim) : Prop where
  released : s.rst = false
  waiting : s.pstep = .wait
  named : s.primitive = some k
  unfinished : s.periph.fDone = false
  quiet : ∀ slot ∈ s.env, ∀ m ∈ slot, m.Quiet

theorem State.Hangs.envStep {s : State} {k : Prim} (h : s.Hangs k) : s.envStep.Hangs k := by
  cases he : s.env with
  | nil => rwa [State.envStep_nil he]
  | cons slot rest =>
    have hstep : s.envStep = ({ s with env := rest } : State).envMoves slot := by simp only [State.envStep, he]
    have henv : s.envStep.env = rest := by
      rw [hstep]; exact State.envMoves_keeps State.env State.envMove_env _ slot
    obtain ⟨hslot, hrest⟩ := List.forall_mem_cons.1 (he ▸ h.quiet)
    obtain ⟨hr, hd⟩ := State.envMoves_quiet hslot (s := { s with env := rest }) h.released
    exact ⟨by rw [hstep, hr], by rw [State.envStep_pstep, h.waiting], by rw [State.envStep_primitive, h.named],
      by rw [hstep, hd]; exact h.unfinished, by rwa [henv]⟩

/-- The hold changes nothing that the hang depends on. -/
theorem State.Hangs.hold {s : State} {k : Prim} (h : s.Hangs k) : s.hold.Hangs k :=
  ⟨h.released, h.waiting, h.named, h.unfinished, h.quiet⟩

/-- A hang has runs of every length, each at the same place in the same primitive. -/
theorem State.Hangs.run {s : State} {k : Prim} (h : s.Hangs k) (hk : k ≠ .stop) (n : Nat) :
    ∃ t : State, core.run n s = .next t ∧ t.Hangs k ∧ t.seq = s.seq ∧ t.phase = s.phase ∧ t.trace = s.trace ∧
      s.SameLatches t := by
  induction n generalizing s with
  | zero => exact ⟨s, rfl, h, rfl, rfl, rfl, rfl, rfl, rfl, rfl, rfl, rfl⟩
  | succ n ih =>
    obtain ⟨t, hrun, hhangs, hseq, hphase, htrace, hop, haddr, htxlen, hrxcnt, hinited, hparams⟩ := ih h.hold.envStep
    simp only [State.envStep_seq, State.envStep_phase, State.envStep_trace, State.envStep_op, State.envStep_addr,
      State.envStep_txlen, State.envStep_rxcnt, State.envStep_inited, State.envStep_params]
      at hseq hphase htrace hop haddr htxlen hrxcnt hinited hparams
    refine ⟨t, ?_, hhangs, hseq, hphase, htrace, hop, haddr, htxlen, hrxcnt, hinited, hparams⟩
    rw [run_succ, step_hold h.released h.waiting h.named hk h.unfinished]
    exact hrun

/-- Settles O45: after `n` steps the block still hangs, and one hold more has lowered every pulse. -/
theorem holdLastsUntilThePeripheralFinishes : Obligations.HoldLastsUntilThePeripheralFinishes := by
  intro s k hr hs hk hne hd henv n
  have hhangs : s.Hangs k := ⟨hr, hs, hk, hd, henv⟩
  obtain ⟨t, hrun, ht, hseq, hphase, htrace, hlatches⟩ := hhangs.run hne n
  have hbusy : t.seq ≠ .idle := State.seq_ne_idle ht.named
  refine ⟨t.hold.envStep, ?_, ?_⟩
  · exact (run_after hrun).trans
      ((run_one t).trans (step_hold ht.released ht.waiting ht.named hne ht.unfinished))
  · obtain ⟨hop, haddr, htxlen, hrxcnt, hinited, hparams⟩ := hlatches
    refine ⟨by simp [hseq], by simp [ht.waiting], by simp [State.busy, hbusy], by simp [Outputs.quiet],
      by simp [State.cmdReady, hbusy], by simp [hphase], by simp [htrace], ?_⟩
    constructor <;> simp [*]

/-- A peripheral that never answers: the first Start of WRITE_BURST to address 0x3C has been triggered, and no agent
makes a move any more. -/
def unansweredStart : State :=
  { State.reset with
    inited := true, op := 2, addr := 0x3C, seq := .start, pstep := .wait
    periph := { Periph.powerOn with fStart := true, inFlight := some .startCondition }
    trace := [.reqStart], calls := [.setControlBit .fStart, .setControlBit .fGo] }

/-- The unanswered Start is what a WRITE_BURST comes to in two steps of the block from an initialised idle block, up to
the pulse of the issue step. -/
theorem unansweredStart_eq :
    (({ State.reset with inited := true }.afterAccept 2 0x3C 0 0).afterStart).hold = unansweredStart := rfl

/-- Refutes O46: from the unanswered Start the block hangs, in SEQ_START after any number of steps. -/
theorem not_everyAcceptedCommandEnds : ¬ Obligations.EveryAcceptedCommandEnds := by
  intro h
  have hcoherent : unansweredStart.Coherent :=
    State.coherent_iff.2 ⟨rfl, nofun, nofun, nofun, fun _ => rfl⟩
  have hdiscipline : unansweredStart.TriggerDiscipline := .of_triggered rfl nofun rfl (.inl rfl)
  have hhangs : unansweredStart.Hangs .start := ⟨rfl, rfl, rfl, rfl, nofun⟩
  obtain ⟨n, t, hrun, hidle⟩ := h unansweredStart hcoherent hdiscipline rfl nofun
  obtain ⟨t', hrun', -, hseq, -⟩ := hhangs.run (by decide) n
  obtain rfl : t = t' := Host.Outcome.next.inj (hrun.symm.trans hrun')
  exact absurd (hseq.symm.trans hidle) nofun

end Sys2Proof.Machine
end

section
/-! The transactions whole (R162 to R164, R170), as runs against a peripheral that answers each primitive: one lemma
for each primitive, one for the Start and address byte, one for each loop, put together along the answers. -/

namespace Sys2Proof.Machine

/-! ### Where a transaction stands, and what leads from one place to the next -/

/-- No request stands and no bus phase is in flight. -/
structure Periph.AtRest (p : Periph) : Prop where
  no_start : p.fStart = false
  no_stop : p.fStop = false
  no_phase : p.inFlight = none

/-- The block is about to issue the primitive of this state of the sequencer, with these moves to come. -/
structure State.At (s : State) (q : Seq) (i : Count) (p : Phase) (env : List (List EnvMove)) : Prop where
  released : s.rst = false
  issuing : s.pstep = .issue
  seq_eq : s.seq = q
  idx_eq : s.idx = i
  phase_eq : s.phase = p
  env_eq : s.env = env
  calm : s.periph.AtRest

/-- With these answers of the peripheral the block comes from `s` to `t`: it makes these events, its receive view is
then `rx`, and what a transaction does not write is as it was. -/
structure State.Leads (s t : State) (answers : List PrimAnswer) (events : List Event) (rx : Memory) : Prop where
  run : core.run (answers.flatMap PrimAnswer.slots).length s = .next t
  latches_same : s.SameLatches t
  rsp_same : t.rspData = s.rspData
  port_same : t.cmdPort = s.cmdPort
  tx_same : t.tx = s.tx
  capacity_same : t.rxCap = s.rxCap
  traced : t.trace = s.trace ++ events
  received : t.rx = rx

theorem State.SameLatches.trans {s t u : State} (h₁ : s.SameLatches t) (h₂ : t.SameLatches u) : s.SameLatches u :=
  ⟨h₂.op_same.trans h₁.op_same, h₂.addr_same.trans h₁.addr_same, h₂.txlen_same.trans h₁.txlen_same,
    h₂.rxcnt_same.trans h₁.rxcnt_same, h₂.inited_same.trans h₁.inited_same, h₂.params_same.trans h₁.params_same⟩

theorem State.Leads.refl (s : State) : s.Leads s [] [] s.rx :=
  ⟨rfl, ⟨rfl, rfl, rfl, rfl, rfl, rfl⟩, rfl, rfl, rfl, rfl, (List.append_nil _).symm, rfl⟩

theorem State.Leads.trans {s t u : State} {as bs : List PrimAnswer} {es fs : List Event} {rx rx' : Memory}
    (h₁ : s.Leads t as es rx) (h₂ : t.Leads u bs fs rx') : s.Leads u (as ++ bs) (es ++ fs) rx' where
  run := by
    rw [List.flatMap_append, List.length_append]
    exact (run_after h₁.run).trans h₂.run
  latches_same := h₁.latches_same.trans h₂.latches_same
  rsp_same := h₂.rsp_same.trans h₁.rsp_same
  port_same := h₂.port_same.trans h₁.port_same
  tx_same := h₂.tx_same.trans h₁.tx_same
  capacity_same := h₂.capacity_same.trans h₁.capacity_same
  traced := by rw [h₂.traced, h₁.traced, List.append_assoc]
  received := h₂.received

theorem length_slots (p : PrimAnswer) : p.slots.length = p.waits + 2 := by
  simp [PrimAnswer.slots]

theorem length_flatMap_slots_singleton (p : PrimAnswer) :
    ([p].flatMap PrimAnswer.slots).length = p.waits + 2 := by
  simp [length_slots]

/-! ### One primitive -/

/-- A finished byte phase leaves the peripheral at rest. -/
theorem Periph.atRest_phaseDone {p : Periph} (d b : Byte) (st : Nat) (ack : Bool) (h₁ : p.fStart = false)
    (h₂ : p.fStop = false) (hf : p.inFlight = some (p.bytePhase d)) : (p.phaseDone b st ack).AtRest := by
  rcases Periph.bytePhase_byte h₁ h₂ d with hb | ⟨c, hb⟩ <;>
    constructor <;> simp [Periph.phaseDone, hf, hb, h₁, h₂]

theorem Periph.phaseDone_fAck (p : Periph) (b : Byte) (st : Nat) (ack : Bool) : (p.phaseDone b st ack).fAck = p.fAck := by
  unfold Periph.phaseDone
  split <;> rfl

/-- A Start (R112). -/
theorem State.leads_start {s : State} {p : PrimAnswer} {rest : List (List EnvMove)} (hr : s.rst = false)
    (hk : s.primitive = some .start) (hs : s.pstep = .issue) (hp : s.phase = .idle ∨ s.phase = .data)
    (hz : s.periph.inFlight ≠ some .stopCondition ∨ s.params.stopThenStartOk = true) (he : s.env = p.slots ++ rest) :
    ∃ t, s.Leads t [p] [.reqStart, .done] s.rx ∧ t.At s.nextSeq s.nextIdx .address rest :=
  ⟨_, ⟨(congrArg (core.run · s) (length_flatMap_slots_singleton p)).trans (run_start hr hk hs hp hz he),
      ⟨rfl, rfl, rfl, rfl, rfl, rfl⟩, rfl, rfl, rfl, rfl, List.append_assoc _ _ _, rfl⟩,
    ⟨hr, rfl, rfl, rfl, rfl, rfl, rfl, rfl, rfl⟩⟩

/-- A WriteByte (R114). -/
theorem State.leads_write {s : State} {q : Seq} {i : Count} {ph : Phase} {p : PrimAnswer}
    {rest : List (List EnvMove)} (h : s.At q i ph (p.slots ++ rest)) (hk : s.primitive = some .write)
    (hp : ph = .address ∨ ph = .data) :
    ∃ t, s.Leads t [p] (writeByteEvents s.writeOperand) s.rx ∧ t.At s.nextSeq s.nextIdx .data rest := by
  obtain ⟨hr, hs, -, -, rfl, he, hstart, hstop, -⟩ := h
  have hrest := Periph.atRest_phaseDone (p := (s.afterWrite s.writeOperand).periph) s.writeOperand p.data p.status
    p.slaveAck hstart hstop rfl
  exact ⟨_, ⟨(congrArg (core.run · s) (length_flatMap_slots_singleton p)).trans (run_write hr hk hs hp hstart hstop he),
      ⟨rfl, rfl, rfl, rfl, rfl, rfl⟩, rfl, rfl, rfl, rfl, List.append_assoc _ _ _, rfl⟩,
    ⟨hr, rfl, rfl, rfl, rfl, rfl, hrest⟩⟩

/-- A ReadByte of a transaction (R115). -/
theorem State.leads_read {s : State} {i : Count} {p : PrimAnswer} {rest : List (List EnvMove)}
    (h : s.At .rx i .data (p.slots ++ rest)) (hc : i.toNat < s.rxCap) :
    ∃ t, s.Leads t [p] [.reqRead s.readOperand, .doneRead p.data] (Memory.write s.rx i.toNat p.data) ∧
      t.At s.nextSeq s.nextIdx .data rest ∧ t.periph.fAck = (s.readOperand == .ack) := by
  obtain ⟨hr, hs, hq, rfl, hp, he, hstart, hstop, -⟩ := h
  have hrest := Periph.atRest_phaseDone (p := (s.afterRead s.readOperand).periph) s.periph.regData p.data p.status
    p.slaveAck hstart hstop rfl
  have hdata := (phaseDone_bytePhase (s.afterRead s.readOperand).periph s.periph.regData p.data p.status p.slaveAck
    hstart hstop rfl).2
  have hack := Periph.phaseDone_fAck (s.afterRead s.readOperand).periph p.data p.status p.slaveAck
  refine ⟨_, ⟨(congrArg (core.run · s) (length_flatMap_slots_singleton p)).trans (run_read hr hq hs hp hc hstart hstop he),
      ⟨rfl, rfl, rfl, rfl, rfl, rfl⟩, rfl, rfl, rfl, rfl, ?_, ?_⟩,
    ⟨hr, rfl, rfl, rfl, rfl, rfl, hrest⟩, hack⟩
  · exact (List.append_assoc ..).trans (congrArg (fun b => s.trace ++ [.reqRead s.readOperand, .doneRead b]) hdata)
  · exact congrArg (Memory.write s.rx s.idx.toNat) hdata

/-! ### A Start and the address byte -/

/-- The state that sends the address byte with this direction (R165). -/
def Dir.addressState : Dir → Seq
  | .write => .addrW
  | .read => .addrR

/-- The block is about to request a Start, first or repeated, that the bus allows (R111, R236). -/
structure State.AtStart (s : State) : Prop where
  released : s.rst = false
  starts : s.seq = .start ∨ s.seq = .rstart
  issuing : s.pstep = .issue
  allowed : s.phase = .idle ∨ s.phase = .data
  no_hazard : s.periph.inFlight ≠ some .stopCondition ∨ s.params.stopThenStartOk = true

/-- A Start, first or repeated, and the address byte (R162, R163). -/
theorem State.AtStart.leads_address {s : State} {d : Dir} {p₁ p₂ : PrimAnswer} {rest : List (List EnvMove)}
    (h : s.AtStart) (hd : s.nextSeq = Dir.addressState d) (he : s.env = p₁.slots ++ (p₂.slots ++ rest)) :
    ∃ t, s.Leads t [p₁, p₂] (addressEvents s.addr d.toBit) s.rx ∧
      t.At (nextDataState s.op s.txlen s.rxcnt d 0) 0 .data rest := by
  have hk : s.primitive = some .start := by rcases h.starts with hq | hq <;> simp [State.primitive, hq]
  obtain ⟨t, hst, ht⟩ := State.leads_start h.released hk h.issuing h.allowed h.no_hazard he
  obtain ⟨hop, haddr, htxlen, hrxcnt, -⟩ := hst.latches_same
  have hseq : t.seq = Dir.addressState d := ht.seq_eq.trans hd
  have hwrite : t.primitive = some .write := by cases d <;> simp [State.primitive, hseq, Dir.addressState]
  obtain ⟨u, htu, hu⟩ := State.leads_write ht hwrite (.inl rfl)
  have hbyte : t.writeOperand = s.addr ++ d.toBit := by
    rw [← frame_eq_append, ← haddr]
    cases d <;> simp [State.writeOperand, hseq, Dir.addressState]
  have hnext : t.nextSeq = nextDataState s.op s.txlen s.rxcnt d 0 := by
    cases d <;> simp [State.nextSeq, hseq, Dir.addressState, hop, htxlen, hrxcnt]
  have hidx : t.nextIdx = 0 := by cases d <;> simp [State.nextIdx, hseq, Dir.addressState]
  rw [hbyte, hst.received] at htu
  rw [hnext, hidx] at hu
  exact ⟨u, hst.trans htu, hu⟩

/-! ### The loops -/

/-- Below the count the index of the next byte does not wrap. -/
theorem Count.toNat_succ {i c : Count} (h : i.toNat < c.toNat) : (i + 1).toNat = i.toNat + 1 := by bv_omega

/-- The write phase: the bytes of the transmit view from the index on, in order (R162, R166). -/
theorem State.leads_writePhase (bytes : List Byte) {s : State} {i : Count} {as : List PrimAnswer}
    {rest : List (List EnvMove)}
    (h : s.At (nextDataState s.op s.txlen s.rxcnt .write i) i .data (as.flatMap PrimAnswer.slots ++ rest))
    (has : as.length = bytes.length) (hi : i.toNat + bytes.length = s.txlen.toNat)
    (hview : ∀ j (hj : j < bytes.length), Memory.read s.tx (i.toNat + j) = some bytes[j]) :
    ∃ t, s.Leads t as (bytes.flatMap writeByteEvents) s.rx ∧
      t.At (if s.op = 4 then .rstart else .stop) s.txlen .data rest := by
  induction bytes generalizing s i as with
  | nil =>
    obtain rfl := List.length_eq_zero_iff.1 has
    obtain rfl : i = s.txlen := BitVec.eq_of_toNat_eq hi
    rw [nextDataState_write, if_neg (BitVec.lt_irrefl _)] at h
    exact ⟨s, .refl s, h⟩
  | cons b bytes ih =>
    obtain ⟨p, as, rfl⟩ := List.exists_cons_of_length_eq_add_one has
    rw [List.length_cons, List.length_cons] at has
    rw [List.length_cons] at hi
    have hlt : i.toNat < s.txlen.toNat := by omega
    rw [nextDataState_write, if_pos (show i < s.txlen from hlt), List.flatMap_cons, List.append_assoc] at h
    obtain ⟨t, hst, ht⟩ := State.leads_write h (by simp [State.primitive, h.seq_eq]) (.inr rfl)
    obtain ⟨hop, -, htxlen, hrxcnt, -⟩ := hst.latches_same
    have hbyte : s.writeOperand = b := by
      have hread : Memory.read s.tx s.idx.toNat = some b := by
        simpa [h.idx_eq] using hview 0 (Nat.zero_lt_succ _)
      simp [State.writeOperand, h.seq_eq, State.txByte_of_read hread]
    have hnext : s.nextSeq = nextDataState t.op t.txlen t.rxcnt .write (i + 1) := by
      simp [State.nextSeq, h.seq_eq, h.idx_eq, hop, htxlen, hrxcnt]
    have hidx : s.nextIdx = i + 1 := by simp [State.nextIdx, h.seq_eq, h.idx_eq]
    rw [hnext, hidx] at ht
    have hsucc := Count.toNat_succ hlt
    obtain ⟨u, htu, hu⟩ := ih ht (Nat.succ.inj has) (by rw [hsucc, htxlen]; omega) fun j hj => by
      rw [hsucc, hst.tx_same, Nat.add_assoc, Nat.add_comm 1 j]
      exact hview (j + 1) (Nat.succ_lt_succ hj)
    rw [hbyte] at hst
    rw [hst.received] at htu
    rw [hop, htxlen] at hu
    exact ⟨u, hst.trans htu, hu⟩

/-- The view with these bytes written from the index on, one after the other. -/
def Memory.writeFrom (m : Memory) (i : Nat) : List Byte → Memory
  | [] => m
  | b :: bs => Memory.writeFrom (Memory.write m i b) (i + 1) bs

theorem Memory.read_writeFrom (bytes : List Byte) (m : Memory) (i j : Nat) :
    Memory.read (Memory.writeFrom m i bytes) j =
      if h : i ≤ j ∧ j - i < bytes.length then some bytes[j - i] else Memory.read m j := by
  induction bytes generalizing m i with
  | nil => simp [Memory.writeFrom]
  | cons b bytes ih =>
    rw [Memory.writeFrom, ih, Memory.read_write]
    rcases lt_trichotomy j i with hlt | rfl | hgt
    · rw [dif_neg (by omega), dif_neg (by omega), if_neg (by omega)]
    · rw [dif_neg (by omega), dif_pos (by simp), if_pos rfl]
      simp
    · obtain ⟨k, rfl⟩ : ∃ k, j = i + 1 + k := ⟨j - (i + 1), by omega⟩
      have hk : i + 1 + k - i = k + 1 := by omega
      have hk' : i + 1 + k - (i + 1) = k := by omega
      simp only [hk, hk', if_neg (show i + 1 + k ≠ i by omega), List.length_cons, List.getElem_cons_succ]
      by_cases hlen : k < bytes.length
      · rw [dif_pos ⟨by omega, hlen⟩, dif_pos ⟨by omega, by omega⟩]
      · rw [dif_neg fun h => hlen h.2, dif_neg fun h => hlen (Nat.lt_of_succ_lt_succ h.2)]

/-- A view written from index 0 on is the caller's view with the received bytes (R62). -/
theorem receivedInto_writeFrom (m : Memory) (bytes : List Byte) :
    receivedInto m (Memory.writeFrom m 0 bytes) bytes := by
  intro j
  rw [Memory.read_writeFrom]
  simp

/-- The AckDecision is ACK while bytes are expected after this one (R142). -/
theorem ackDecision_of_remaining {i c : Count} {n : Nat} (h : i.toNat + (n + 1) = c.toNat) :
    ackDecision i c = if n = 0 then .nack else .ack := by
  have hc : c ≠ 0 := by rintro rfl; simp at h
  split
  · exact ackDecision_eq_nack.2 ((Count.eq_sub_one_iff hc).2 (by omega))
  · exact ackDecision_eq_ack.2 fun hlast => by have := (Count.eq_sub_one_iff hc).1 hlast; omega

theorem readPhaseEvents_cons (b : Byte) (bs : List Byte) : readPhaseEvents (b :: bs) =
    [.reqRead (if bs.length = 0 then .nack else .ack), .doneRead b] ++ readPhaseEvents bs := by
  cases bs <;> rfl

/-- The read phase: the bytes the peripheral answers, stored from the index on, NACK for the last one (R163, R146). -/
theorem State.leads_readPhase (as : List PrimAnswer) {s : State} {i : Count} {rest : List (List EnvMove)}
    (h : s.At (nextDataState s.op s.txlen s.rxcnt .read i) i .data (as.flatMap PrimAnswer.slots ++ rest))
    (hi : i.toNat + as.length = s.rxcnt.toNat) (hcap : s.rxcnt.toNat ≤ s.rxCap) :
    ∃ t, s.Leads t as (readPhaseEvents (as.map PrimAnswer.data))
        (Memory.writeFrom s.rx i.toNat (as.map PrimAnswer.data)) ∧
      t.At .stop s.rxcnt .data rest ∧ t.periph.fAck = if as = [] then s.periph.fAck else false := by
  induction as generalizing s i with
  | nil =>
    obtain rfl : i = s.rxcnt := BitVec.eq_of_toNat_eq hi
    rw [nextDataState_read, if_neg (BitVec.lt_irrefl _)] at h
    exact ⟨s, .refl s, h, rfl⟩
  | cons p as ih =>
    rw [List.length_cons] at hi
    have hlt : i.toNat < s.rxcnt.toNat := by omega
    rw [nextDataState_read, if_pos (show i < s.rxcnt from hlt), List.flatMap_cons, List.append_assoc] at h
    obtain ⟨t, hst, ht, hack⟩ := State.leads_read h (by omega)
    obtain ⟨hop, -, htxlen, hrxcnt, -⟩ := hst.latches_same
    have hk : s.readOperand = if as.length = 0 then .nack else .ack := by
      simp only [State.readOperand, h.seq_eq, h.idx_eq]
      exact ackDecision_of_remaining hi
    have hnext : s.nextSeq = nextDataState t.op t.txlen t.rxcnt .read (i + 1) := by
      simp [State.nextSeq, h.seq_eq, h.idx_eq, hop, htxlen, hrxcnt]
    have hidx : s.nextIdx = i + 1 := by simp [State.nextIdx, h.seq_eq, h.idx_eq]
    rw [hnext, hidx] at ht
    have hsucc := Count.toNat_succ hlt
    obtain ⟨u, htu, hu, hack'⟩ := ih ht (by rw [hsucc, hrxcnt]; omega) (by rw [hrxcnt, hst.capacity_same]; exact hcap)
    rw [hst.received, hsucc] at htu
    rw [hrxcnt] at hu
    refine ⟨u, ?_, hu, ?_⟩
    · rw [List.map_cons, readPhaseEvents_cons, List.length_map, ← hk]
      exact hst.trans htu
    · rw [hack', hack, hk, if_neg (List.cons_ne_nil _ _)]
      cases as <;> rfl

/-! ### The two phases with their Start -/

theorem exists_two_of_length {α : Type} {l : List α} {n : Nat} (h : l.length = n + 2) :
    ∃ x y m, l = x :: y :: m ∧ m.length = n := by
  obtain ⟨x, l, rfl⟩ := List.exists_cons_of_length_eq_add_one h
  obtain ⟨y, m, rfl⟩ := List.exists_cons_of_length_eq_add_one (Nat.succ.inj h)
  exact ⟨x, y, m, rfl, Nat.succ.inj (Nat.succ.inj h)⟩

/-- A Start, the address byte with direction WRITE, and the write phase (R162). -/
theorem State.AtStart.leads_write {s : State} {bytes : List Byte} {answers : List PrimAnswer}
    {rest : List (List EnvMove)} (h : s.AtStart) (hd : s.nextSeq = .addrW) (hlen : bytes.length = s.txlen.toNat)
    (hview : ∀ j (hj : j < bytes.length), Memory.read s.tx j = some bytes[j])
    (has : answers.length = s.txlen.toNat + 2) (he : s.env = answers.flatMap PrimAnswer.slots ++ rest) :
    ∃ t, s.Leads t answers (addressEvents s.addr 0 ++ bytes.flatMap writeByteEvents) s.rx ∧
      t.At (if s.op = 4 then .rstart else .stop) s.txlen .data rest := by
  obtain ⟨p₁, p₂, as, rfl, hlast⟩ := exists_two_of_length has
  obtain ⟨t, hst, ht⟩ := h.leads_address (d := .write) (p₁ := p₁) (p₂ := p₂)
    (rest := as.flatMap PrimAnswer.slots ++ rest) hd (by simpa using he)
  obtain ⟨hop, -, htxlen, hrxcnt, -⟩ := hst.latches_same
  obtain ⟨u, htu, hu⟩ := State.leads_writePhase bytes (s := t) (i := 0) (as := as) (rest := rest)
    (by rw [hop, htxlen, hrxcnt]; exact ht) (hlast.trans hlen.symm) (by rw [htxlen, hlen]; exact Nat.zero_add _)
    fun j hj => by rw [hst.tx_same]; simpa using hview j hj
  rw [hst.received] at htu
  rw [hop, htxlen] at hu
  exact ⟨u, hst.trans htu, hu⟩

/-- A Start, the address byte with direction READ, and the read phase (R163). -/
theorem State.AtStart.leads_read {s : State} {answers : List PrimAnswer} {rest : List (List EnvMove)} (h : s.AtStart)
    (hd : s.nextSeq = .addrR) (hcap : s.rxcnt.toNat ≤ s.rxCap) (has : answers.length = s.rxcnt.toNat + 2)
    (he : s.env = answers.flatMap PrimAnswer.slots ++ rest) :
    ∃ t, s.Leads t answers (addressEvents s.addr 1 ++ readPhaseEvents ((answers.drop 2).map PrimAnswer.data))
        (Memory.writeFrom s.rx 0 ((answers.drop 2).map PrimAnswer.data)) ∧
      t.At .stop s.rxcnt .data rest ∧ (s.rxcnt ≠ 0 → t.periph.fAck = false) := by
  obtain ⟨p₁, p₂, as, rfl, hlast⟩ := exists_two_of_length has
  obtain ⟨t, hst, ht⟩ := h.leads_address (d := .read) (p₁ := p₁) (p₂ := p₂)
    (rest := as.flatMap PrimAnswer.slots ++ rest) hd (by simpa using he)
  obtain ⟨hop, -, htxlen, hrxcnt, -⟩ := hst.latches_same
  obtain ⟨u, htu, hu, hack⟩ := State.leads_readPhase as (s := t) (i := 0) (rest := rest)
    (by rw [hop, htxlen, hrxcnt]; exact ht) (by rw [hrxcnt, hlast]; exact Nat.zero_add _)
    (by rw [hrxcnt, hst.capacity_same]; exact hcap)
  rw [hst.received] at htu
  rw [hrxcnt] at hu
  refine ⟨u, hst.trans htu, hu, fun hc => ?_⟩
  have hne : as ≠ [] := by
    rintro rfl
    exact hc (BitVec.eq_of_toNat_eq hlast.symm)
  rw [hack, if_neg hne]

/-! ### Acceptance and terminal Stop -/

/-- The acceptance of a transaction by its own guard (R161). -/
theorem TransactionForm.exec_accept {s : State} {i : Instr} {o : Opcode} {a : SlaveAddr} {txl rxc : Count}
    (hi : TransactionForm i o a txl rxc) (hr : s.rst = false) (hs : s.seq = .idle) (hn : s.inited = true)
    (hp : s.phase = .idle) : exec i s = .next (s.afterAccept o a txl rxc) := by
  cases hi with
  | writeBurst => exact acceptTransaction_accept .writeBurst _ _ _ hr hs hn hp
  | readBurst => exact acceptTransaction_accept .readBurst _ _ _ hr hs hn hp
  | writeThenRead => exact acceptTransaction_accept .writeThenRead _ _ _ hr hs hn hp

theorem TransactionForm.wellFormed {i : Instr} {o : Opcode} {a : SlaveAddr} {txl rxc : Count}
    (hi : TransactionForm i o a txl rxc) (hp : Bool) : i.wellFormed hp = true := by
  cases hi <;> rfl

/-- The step of an idle block with the word of an admitted command on its port, and no move in the next slot. -/
theorem step_accept {s t : State} {i : Instr} {w : CmdWord} {rest : List (List EnvMove)} (hr : s.rst = false)
    (hs : s.seq = .idle) (hi : i.wellFormed s.params.hostPrimitives = true) (hw : encode i = .cmd w)
    (hport : s.cmdPort = some w) (hexec : exec i s = .next t) (he : t.env = [] :: rest) :
    step s = .next { t with env := rest } := by
  have hd : decodeCmd s.params.hostPrimitives w = .legal i := by
    have := decodeOfEncodeIsTheInstruction _ i hi
    rwa [hw] at this
  rw [step_command hr hs hport hd, hexec]
  simp [thenEnvironment, State.envStep, he, State.envMoves]

/-- The first state of a transaction: its command accepted, with these moves to come. -/
def State.begun (s : State) (o : Opcode) (a : SlaveAddr) (txl rxc : Count) (env : List (List EnvMove)) : State :=
  { s.afterAccept o a txl rxc with env := env }

/-- The last state of a transaction: its Stop issued, with these moves to come. -/
def State.ended (s : State) (env : List (List EnvMove)) : State := { s.afterStop with env := env }

theorem length_transactionSlots (answers : List PrimAnswer) :
    (transactionSlots answers).length = 1 + ((answers.flatMap PrimAnswer.slots).length + 1) := by
  simp only [transactionSlots, List.length_append, List.length_singleton, Nat.add_assoc]

/-- A transaction whole: acceptance, what its primitives do, terminal Stop (R161, R167). -/
theorem TransactionForm.run {s t : State} {i : Instr} {o : Opcode} {a : SlaveAddr} {txl rxc j : Count}
    {answers : List PrimAnswer} {es : List Event} {rx : Memory} {rest : List (List EnvMove)}
    (hi : TransactionForm i o a txl rxc) (hready : s.ReadyFor (encode i)) (he : s.env = transactionSlots answers ++ rest)
    (hlead : (s.begun o a txl rxc (answers.flatMap PrimAnswer.slots ++ [] :: rest)).Leads t answers es rx)
    (hat : t.At .stop j .data ([] :: rest)) :
    core.run (transactionSlots answers).length s = .next (t.ended rest) ∧ s.Finished (t.ended rest) o a txl rxc ∧
      (t.ended rest).trace = s.trace ++ es ++ [.reqStop] ∧ (t.ended rest).rx = rx := by
  obtain ⟨w, hw, hport⟩ := hready.presented
  have haccept : step s = .next (s.begun o a txl rxc (answers.flatMap PrimAnswer.slots ++ [] :: rest)) := by
    refine step_accept hready.not_reset hready.idle (hi.wellFormed _) hw hport
      (hi.exec_accept hready.not_reset hready.idle hready.initialised hready.bus_idle) ?_
    simp [State.afterAccept, he, transactionSlots]
  have hstop : step t = .next (t.ended rest) :=
    step_stop hat.released (by simp [State.primitive, hat.seq_eq]) hat.issuing hat.phase_eq hat.env_eq
  obtain ⟨hop, haddr, htxlen, hrxcnt, hinited, hparams⟩ := hlead.latches_same
  refine ⟨?_, ⟨rfl, hat.issuing, rfl, rfl, ?_, hop, haddr, htxlen, hrxcnt, hinited, hlead.rsp_same, hparams,
    hlead.tx_same, hlead.port_same⟩, ?_, hlead.received⟩
  · rw [length_transactionSlots]
    exact (run_after ((run_one s).trans haccept)).trans ((run_after hlead.run).trans ((run_one t).trans hstop))
  · simp [State.cmdReady, State.ended, State.afterStop, hat.released]
  · exact congrArg (· ++ [Event.reqStop]) hlead.traced

theorem State.ReadyFor.atStart_begun {s : State} {w : Encoded} (h : s.ReadyFor w) (o : Opcode) (a : SlaveAddr)
    (txl rxc : Count) (env : List (List EnvMove)) : (s.begun o a txl rxc env).AtStart :=
  ⟨h.not_reset, .inl rfl, rfl, .inl h.bus_idle, h.no_hazard⟩

/-! ### The transactions -/

/-- Settles O47: Start, address byte and write phase lead to the terminal Stop. -/
theorem writeBurstRuns : Obligations.WriteBurstRuns := by
  intro s a n bytes answers rest hready hlen hview has he
  obtain ⟨t, hlead, hat⟩ := (hready.atStart_begun 2 a n 0 _).leads_write (rest := [] :: rest) rfl hlen hview has rfl
  obtain ⟨hrun, hfinished, htrace, hrx⟩ := (TransactionForm.writeBurst a n).run hready he hlead hat
  refine ⟨_, hrun, hfinished, rfl, ?_, fun j => by rw [hrx]; rfl⟩
  rw [htrace]
  simp only [List.append_assoc]
  rfl

/-- Settles O48: Start, address byte and read phase lead to the terminal Stop. -/
theorem readBurstRuns : Obligations.ReadBurstRuns := by
  intro s a c answers rest hready hcap has he
  obtain ⟨t, hlead, hat, hack⟩ := (hready.atStart_begun 3 a 0 c _).leads_read (rest := [] :: rest) rfl hcap has rfl
  obtain ⟨hrun, hfinished, htrace, hrx⟩ := (TransactionForm.readBurst a c).run hready he hlead hat
  refine ⟨_, hrun, hfinished, rfl, ?_, ?_, hack⟩
  · rw [htrace]
    simp only [List.append_assoc]
    rfl
  · rw [hrx]
    exact receivedInto_writeFrom _ _

/-- Settles O49: Start, address byte and write phase lead to the repeated Start, and Start, address byte and read
phase from there to the terminal Stop. -/
theorem writeThenReadRuns : Obligations.WriteThenReadRuns := by
  intro s a m r bytes answers rest hready hcap hlen hview has he
  obtain ⟨as, bs, rfl, hm⟩ : ∃ as bs, answers = as ++ bs ∧ as.length = m.toNat + 2 :=
    ⟨answers.take (m.toNat + 2), answers.drop (m.toNat + 2), (List.take_append_drop _ _).symm,
      List.length_take_of_le (by omega)⟩
  have hr : bs.length = r.toNat + 2 := by rw [List.length_append] at has; omega
  have hdrop : (as ++ bs).drop (m.toNat + 4) = bs.drop 2 := by
    rw [List.drop_append, List.drop_eq_nil_of_le (by omega), hm]
    simp
  obtain ⟨t, hst, ht⟩ := (hready.atStart_begun 4 a m r _).leads_write (rest := bs.flatMap PrimAnswer.slots ++ [] :: rest)
    rfl hlen hview hm rfl
  obtain ⟨-, haddr, -, hrxcnt, -⟩ := hst.latches_same
  have hstart : t.AtStart :=
    ⟨ht.released, .inr ht.seq_eq, ht.issuing, .inr ht.phase_eq, .inl (by rw [ht.calm.no_phase]; nofun)⟩
  obtain ⟨u, htu, hu, -⟩ := hstart.leads_read (rest := [] :: rest) (by rw [State.nextSeq, ht.seq_eq]; rfl)
    (by rw [hrxcnt, hst.capacity_same]; exact hcap) (by rw [hrxcnt]; exact hr) ht.env_eq
  rw [haddr, hst.received] at htu
  obtain ⟨hrun, hfinished, htrace, hrx⟩ := (TransactionForm.writeThenRead a m r).run (answers := as ++ bs) hready he
    (by rw [List.flatMap_append, List.append_assoc]; exact hst.trans htu) hu
  refine ⟨_, hrun, hfinished, rfl, ?_, ?_⟩
  · rw [htrace, hdrop]
    simp only [List.append_assoc]
    rfl
  · rw [hrx, hdrop]
    exact receivedInto_writeFrom _ _

end Sys2Proof.Machine
end

section
/-! The host-issued primitives whole (R121), as runs from the word on the port to `cmd_done`. -/

namespace Sys2Proof.Machine

/-- The acceptance of a host-issued primitive by its own guard (R121). -/
theorem HostForm.exec_accept {s : State} {i : Instr} {o : Opcode} {k : Prim} {rxc : Count} {q : Phase}
    (hi : HostForm i o k rxc) (hr : s.rst = false) (hs : s.seq = .idle) (hh : s.params.hostPrimitives = true)
    (hn : s.inited = true) (hp : phaseAfter s.phase k = some q) : exec i s = .next (s.afterAcceptPrim o rxc) := by
  cases hi with
  | start => exact acceptHostPrimitive_accept .start _ hr hs hh hn hp
  | stop => exact acceptHostPrimitive_accept .stop _ hr hs hh hn hp
  | writeByte => exact acceptHostPrimitive_accept .writeByte _ hr hs hh hn hp
  | readByte => exact acceptHostPrimitive_accept .readByte _ hr hs hh hn hp

theorem HostForm.wellFormed {i : Instr} {o : Opcode} {k : Prim} {rxc : Count} (hi : HostForm i o k rxc) :
    i.wellFormed true = true := by
  cases hi <;> rfl

/-- A host-issued primitive accepted, with these moves to come. -/
def State.hostIssued (s : State) (o : Opcode) (rxc : Count) (env : List (List EnvMove)) : State :=
  { s.afterAcceptPrim o rxc with env := env }

/-- The acceptance step of a host-issued primitive whose word is on the port. -/
theorem HostForm.step_accept {s : State} {i : Instr} {o : Opcode} {k : Prim} {rxc : Count} {q : Phase} {w : CmdWord}
    {env : List (List EnvMove)} (hi : HostForm i o k rxc) (hr : s.rst = false) (hs : s.seq = .idle)
    (hn : s.inited = true) (hh : s.params.hostPrimitives = true) (hw : encode i = .cmd w) (hport : s.cmdPort = some w)
    (hp : phaseAfter s.phase k = some q) (he : s.env = [] :: env) : step s = .next (s.hostIssued o rxc env) :=
  Machine.step_accept hr hs (by rw [hh]; exact hi.wellFormed) hw hport (hi.exec_accept hr hs hh hn hp) he

/-- A run goes on from the next state of its first step. -/
theorem run_after_step {n : Nat} {s t u : State} (hstep : step s = .next t) (h : core.run n t = .next u) :
    core.run (n + 1) s = .next u := by
  rw [run_succ, hstep]
  exact h

/-- The word of WRITE_BYTE written out (R81, R83). -/
theorem encode_writeByte (d : Byte) : encode (.writeByte d) = .cmd ((0xA00000 : BitVec 24) ++ d) := rfl

/-- The word of READ_BYTE written out (R81, R83). -/
theorem encode_readByte (k : Ack) : encode (.readByte k) = .cmd ((0x58000000 : BitVec 31) ++ k.toBit) := by
  cases k <;> rfl

/-- Settles O50: the acceptance step, then the run of the primitive from SEQ_PRIM. -/
theorem hostPrimitiveRuns : Obligations.HostPrimitiveRuns := by
  intro s p rest hr hs hn hh
  refine ⟨fun hport hp hz he => ?_, fun hport hp he => ?_, fun d hport hp _ h₁ h₂ he => ?_,
    fun k hport hp _ h₁ h₂ he => ?_⟩
  · have haccept := HostForm.start.step_accept hr hs hn hh rfl hport (phaseAfter_start_eq.2 ⟨hp, rfl⟩) he
    have hrun := run_start (s := s.hostIssued 8 0 (p.slots ++ rest)) hr rfl rfl hp hz rfl
    exact ⟨_, run_after_step haccept hrun, rfl, rfl, rfl, List.append_assoc .., rfl, .of_eq rfl rfl rfl⟩
  · have haccept := HostForm.stop.step_accept hr hs hn hh rfl hport (phaseAfter_stop_eq.2 ⟨hp, rfl⟩) he
    have hstop := step_stop (s := s.hostIssued 9 0 ([] :: rest)) hr rfl rfl hp rfl
    exact ⟨_, run_after_step haccept ((run_one _).trans hstop), rfl, rfl, rfl, rfl, rfl, .of_eq rfl rfl rfl⟩
  · have haccept := (HostForm.writeByte d).step_accept hr hs hn hh (encode_writeByte d) hport
      (phaseAfter_write_eq.2 ⟨hp, rfl⟩) he
    have hrun := run_write (s := s.hostIssued 10 d (p.slots ++ rest)) hr rfl rfl hp h₁ h₂ rfl
    exact ⟨_, run_after_step haccept hrun, rfl, rfl, rfl, List.append_assoc .., rfl, .of_eq rfl rfl rfl⟩
  · have haccept := (HostForm.readByte k).step_accept hr hs hn hh (encode_readByte k) hport
      (phaseAfter_read_eq.2 ⟨hp, rfl⟩) he
    have hrun := run_respond (s := s.hostIssued 11 (ackByte k) (p.slots ++ rest)) hr rfl rfl rfl hp h₁ h₂ rfl
    have hack : (s.hostIssued 11 (ackByte k) (p.slots ++ rest)).readOperand = k := ackBit_ackByte k
    have hdata := (phaseDone_bytePhase ((s.hostIssued 11 (ackByte k) (p.slots ++ rest)).afterRead k).periph
      s.periph.regData p.data p.status p.slaveAck h₁ h₂ rfl).2
    rw [hack] at hrun
    refine ⟨_, run_after_step haccept hrun, rfl, rfl, rfl, ?_, hdata, .of_eq rfl rfl rfl⟩
    exact (List.append_assoc ..).trans (congrArg (fun b => s.trace ++ [.reqRead k, .doneRead b]) hdata)

end Sys2Proof.Machine
end
